-- ==== Sys2Proof/Word.lean ====
section
/-! DEFINITION. The word type of CORE and the reduction every computation ends with. -/

namespace Sys2Proof

/-- A register cell, a memory cell, an address: an unsigned 8-bit value (R5 `XLEN`, `AWIDTH`; R7 `u8`). -/
abbrev Byte := BitVec 8

/-- R7: "Every computation in pseudocode is done on unbounded integers and then reduced explicitly:
`u8(v) = v mod 256`"; a negative value reduces to the congruent value in 0-255. -/
def u8 (v : Int) : Byte := BitVec.ofInt 8 v

end Sys2Proof
end

