-- ==== Sys2Proof/Machine/Flags.lean ====
section
/-! DEFINITION. The flag bits of `FL` (R28), the values CMP writes, and the ALU (R140). -/

namespace Sys2Proof.Machine

/-- Bit `E` of a flags value (R28, R30 `FL[0]`). -/
def flagE (fl : Byte) : Bool := fl.getLsbD 0

/-- Bit `G` of a flags value (R28). -/
def flagG (fl : Byte) : Bool := fl.getLsbD 1

/-- Bit `L` of a flags value (R28). -/
def flagL (fl : Byte) : Bool := fl.getLsbD 2

/-- The flags of an unsigned comparison (R140 CMP, R143): `0x01` equal, `0x02` greater, `0x04` less. -/
def cmpFlags (a b : Byte) : Byte :=
  if a.toNat = b.toNat then 0x01
  else if b.toNat < a.toNat then 0x02
  else 0x04

/-- The operations of the ALU, a closed type (R121, R140). No opcode selects `sub` (R144). -/
inductive AluOp where
  /-- Sum. -/
  | add
  /-- Difference. -/
  | sub
  /-- Low byte of the product. -/
  | mul
  /-- Comparison; the result is a flags value. -/
  | cmp
  deriving DecidableEq, Repr

/-- R140 `alu(kind, a, b)`. -/
def alu : AluOp → Byte → Byte → Byte
  | .add, a, b => u8 (a.toNat + b.toNat)
  | .sub, a, b => u8 (a.toNat - b.toNat)
  | .mul, a, b => u8 (a.toNat * b.toNat)
  | .cmp, a, b => cmpFlags a b

end Sys2Proof.Machine
end

