-- ==== Sys2Proof/Syntax.lean ====
section
/-! DEFINITION. The thirteen instructions of R87, in the order of its table. -/

namespace Sys2Proof

/-- One instruction, as its bytes name it (R80, R81). A register operand is the whole operand byte: a value of 8
to 255 names no register and is "a fault of the decoded instruction ..., not a different instruction" (R84, R89). -/
inductive Instr where
  /-- Halt (R118). -/
  | hlt
  /-- Load immediate (R160). -/
  | ldi (rA imm : Byte)
  /-- Print register (R161). -/
  | prn (rA : Byte)
  /-- Multiply registers (R142). -/
  | mul (rA rB : Byte)
  /-- Add registers (R141). -/
  | add (rA rB : Byte)
  /-- Push register (R170). -/
  | push (rA : Byte)
  /-- Pop into register (R171). -/
  | pop (rA : Byte)
  /-- Call subroutine (R180). -/
  | call (rA : Byte)
  /-- Return from subroutine (R181). -/
  | ret
  /-- Compare registers (R143). -/
  | cmp (rA rB : Byte)
  /-- Jump (R182). -/
  | jmp (rA : Byte)
  /-- Jump if equal (R183). -/
  | jeq (rA : Byte)
  /-- Jump if not equal (R184). -/
  | jne (rA : Byte)
  deriving DecidableEq, Repr

end Sys2Proof
end

