-- ==== Sys2Proof/Decode.lean ====
section
/-! DEFINITION. Decoding (R80 to R90), total on any bytes, and the encoder written from the same opcode map. -/

namespace Sys2Proof

/-- An instruction that waits for the operand bytes of its format (R81). -/
inductive Shape where
  /-- Format `N`: no operand. -/
  | n (i : Instr)
  /-- Format `R`: one operand byte. -/
  | r (mk : Byte → Instr)
  /-- Formats `RR` and `RI`: two operand bytes. -/
  | rr (mk : Byte → Byte → Instr)

/-- Why a list of bytes gives no instruction. -/
inductive DecodeReject where
  /-- The opcode byte is none of the thirteen (R88): UnknownOpcode. -/
  | unknownOpcode (op : Byte)
  /-- The list ends before the instruction does. The core's fetch always supplies three bytes. -/
  | truncated
  deriving DecidableEq, Repr

/-- The opcode map of R87, row by row. The whole byte selects the row (mask 0xFF). -/
def opcodeMap : List (Byte × Shape) :=
  [ (0b00000001#8, .n .hlt),
    (0b10000010#8, .rr .ldi),
    (0b01000111#8, .r .prn),
    (0b10100010#8, .rr .mul),
    (0b10100000#8, .rr .add),
    (0b01000101#8, .r .push),
    (0b01000110#8, .r .pop),
    (0b01010000#8, .r .call),
    (0b00010001#8, .n .ret),
    (0b10100111#8, .rr .cmp),
    (0b01010100#8, .r .jmp),
    (0b01010101#8, .r .jeq),
    (0b01010110#8, .r .jne) ]

/-- The row of an opcode byte, if it has one (R87, R88). -/
def shapeOf (op : Byte) : Option Shape := opcodeMap.lookup op

/-- Read one instruction from the front of a list of bytes, the opcode byte first (R80), and return the bytes
that follow it. -/
def decode : List Byte → Except DecodeReject (Instr × List Byte)
  | [] => .error .truncated
  | op :: rest =>
    match shapeOf op, rest with
    | none, _ => .error (.unknownOpcode op)
    | some (.n i), rest => .ok (i, rest)
    | some (.r mk), b1 :: rest => .ok (mk b1, rest)
    | some (.rr mk), b1 :: b2 :: rest => .ok (mk b1 b2, rest)
    | some (.r _), _ => .error .truncated
    | some (.rr _), _ => .error .truncated

/-- The opcode byte of an instruction, from the binary column of R87. -/
def opcodeOf : Instr → Byte
  | .hlt => 0b00000001#8
  | .ldi _ _ => 0b10000010#8
  | .prn _ => 0b01000111#8
  | .mul _ _ => 0b10100010#8
  | .add _ _ => 0b10100000#8
  | .push _ => 0b01000101#8
  | .pop _ => 0b01000110#8
  | .call _ => 0b01010000#8
  | .ret => 0b00010001#8
  | .cmp _ _ => 0b10100111#8
  | .jmp _ => 0b01010100#8
  | .jeq _ => 0b01010101#8
  | .jne _ => 0b01010110#8

/-- The operand bytes of an instruction in address order (R81). -/
def operandsOf : Instr → List Byte
  | .hlt => []
  | .ldi rA imm => [rA, imm]
  | .prn rA => [rA]
  | .mul rA rB => [rA, rB]
  | .add rA rB => [rA, rB]
  | .push rA => [rA]
  | .pop rA => [rA]
  | .call rA => [rA]
  | .ret => []
  | .cmp rA rB => [rA, rB]
  | .jmp rA => [rA]
  | .jeq rA => [rA]
  | .jne rA => [rA]

/-- The bytes of an instruction in ascending addresses: the opcode byte, then its operand bytes (R53, R80). -/
def encode (i : Instr) : List Byte := opcodeOf i :: operandsOf i

/-- R82: the width in bytes, as the opcode map lists it. -/
def widthOf : Instr → Nat
  | .hlt => 1
  | .ldi _ _ => 3
  | .prn _ => 2
  | .mul _ _ => 3
  | .add _ _ => 3
  | .push _ => 2
  | .pop _ => 2
  | .call _ => 2
  | .ret => 1
  | .cmp _ _ => 3
  | .jmp _ => 2
  | .jeq _ => 2
  | .jne _ => 2

/-- The three bytes of a table word: the first byte in bits 7:0, the second in bits 15:8, the third in bits
23:16; every bit from `nbits` up is 0. Three bytes are the longest instruction (R5 `ILEN`). -/
def tableBytes (nbits w : Nat) : List Byte :=
  [ BitVec.ofNat 8 (w % 2 ^ nbits),
    BitVec.ofNat 8 (w % 2 ^ nbits / 2 ^ 8),
    BitVec.ofNat 8 (w % 2 ^ nbits / 2 ^ 16) ]

/-- The instruction the decoder reads from a table word. -/
def decodeTableWord (nbits w : Nat) : Option Instr :=
  match decode (tableBytes nbits w) with
  | .ok (i, _) => some i
  | .error _ => none

end Sys2Proof
end

