-- ==== Sys2Proof/Config.lean ====
section
/-! DEFINITION. The implementation parameters of R5: the fixed numbers, and the two parameters that take a value. -/

namespace Sys2Proof

/-- `BOUNDS_MODE` (R5, R113, R114): what an address past 255 computed from `pc` does. -/
inductive BoundsMode where
  /-- The address raises BoundsFault (R203). -/
  | fault
  /-- The address is reduced modulo 256. -/
  | wrap
  deriving DecidableEq, Repr

/-- The parameters of R5 that take a value, fixed for a run (R40). `TRACE_FORMAT`, the text of a trace line, is
out of scope (R4) and changes no state (R215). -/
structure Params where
  /-- `BOUNDS_MODE`. -/
  boundsMode : BoundsMode
  /-- `TRACE_ENABLE`. -/
  traceEnable : Bool
  deriving DecidableEq, Repr

/-- `NREG` (R5). -/
abbrev nreg : Nat := 8

/-- `MEM_SIZE` (R5). -/
abbrev memSize : Nat := 256

/-- The index of a general register, 0 to 7 (R20). -/
abbrev RegIdx := Fin nreg

/-- `SP_INDEX` (R5, R21). -/
abbrev spIndex : RegIdx := 7

end Sys2Proof
end

