-- ==== Sys2Proof/Machine/Defaults.lean ====
section
/-! DEFINITION. The values State starts from that the spec gives as defaults of its parameters and as the
contents of unwritten memory. -/

namespace Sys2Proof.Machine

/-- R5: `BOUNDS_MODE` "one of `fault` (default, the spec's choice) or `wrap`"; `TRACE_ENABLE` "Boolean, default
false". DESIGN CHOICE (notes/assumptions/2.md): the spec leaves both open and names these defaults. -/
def defaultParams : Params := { boundsMode := .fault, traceEnable := false }

/-- What an address that `mem` does not list reads as: R35 "Reset value: every cell 0". -/
def unlistedByte : Byte := 0

/-- R23: SP is "initialized to 0xF4 (244) at machine reset". -/
def spReset : Byte := 0xF4

end Sys2Proof.Machine
end

