-- ==== Sys2Proof/Machine/State.lean ====
section
/-! DEFINITION. The state of CORE (R41), its reset (R230), and the ways a step can stop. -/

namespace Sys2Proof.Machine

/-- `STATUS` (R32): whether the core is stepping. -/
inductive Status where
  /-- The core executes the instruction at `pc` at its next step. -/
  | run
  /-- HLT was executed (R118). Final until reset. -/
  | halt
  /-- A fault was raised (R206). Final until reset. -/
  | fault
  deriving DecidableEq, Repr

/-- One entry of the trace (R215): `pc`, the opcode byte, the two bytes after it, and `x[0]` to `x[7]`. -/
structure TraceEntry where
  /-- The address of the opcode byte. -/
  pc : Byte
  /-- The opcode byte. -/
  op : Byte
  /-- The byte at `u8(pc + 1)`. -/
  byte1 : Byte
  /-- The byte at `u8(pc + 2)`. -/
  byte2 : Byte
  /-- `x[0]` to `x[7]` before the instruction. -/
  regs : Vector Byte nreg
  deriving DecidableEq, Repr

/-- The whole state (R41) of the one core and its one thread (R213: no core identifiers, no second register file or
`pc`), and the parameters of R5, which stand here because the host fixes the types of `exec`
and `step`. DESIGN CHOICE (notes/assumptions/1.md): R40 calls the parameters configuration; no step changes them. -/
structure State where
  /-- `x[0]` to `x[7]`; entry 7 is `SP` (R20, R21). -/
  regs : Vector Byte nreg
  /-- The program counter: the address of the instruction's opcode byte (R24). -/
  pc : Byte
  /-- The flags register: bit 0 `E`, bit 1 `G`, bit 2 `L` (R28). -/
  fl : Byte
  /-- Memory (R35) in canonical form: addresses rising, no cell equal to `unlistedByte`. -/
  mem : List Host.Cell
  /-- `STATUS` (R32). -/
  status : Status
  /-- `FCAUSE`: the fault cause code of R200 (R33). -/
  fcause : BitVec 8
  /-- `FPC`: the address of the faulting instruction (R33). -/
  fpc : Byte
  /-- `FOP`: the opcode byte at `FPC` (R33). -/
  fop : Byte
  /-- `FINFO`: the cause's detail, 9 bits (R33). -/
  finfo : BitVec 9
  /-- `OUT`: the bytes PRN emitted, oldest first (R38). -/
  out : List Byte
  /-- `TRACE`: oldest first (R39). -/
  trace : List TraceEntry
  /-- `BOUNDS_MODE` and `TRACE_ENABLE` (R5), fixed for a run. -/
  params : Params
  deriving DecidableEq, Repr

/-- Why `step` has no next state: only because the core is stopped (R120: "the core has no step"). A fault of CORE
(R200) is none of these: its entry is a next state (R206). -/
inductive Fault where
  /-- Raised by `step` alone, when `STATUS = HALT` (R120). Safe: the model stops where the core has no step. -/
  | halted
  /-- Raised by `step` alone, when `STATUS = FAULT` (R120). Safe: the model stops where the core has no step. -/
  | faulted
  deriving DecidableEq, Repr

/-- Why the model refuses. No instruction of this model is refused. -/
inductive Refusal where
  /-- An instruction of the opcode table that has no meaning yet, by its mnemonic; raised by `exec`'s arms only.
  Safe. No arm of `exec` answers it. -/
  | notModelled (mnemonic : String)
  deriving DecidableEq, Repr

/-- R230 under given parameters: "Reset sets every piece of state to its reset value, all at once". -/
def State.resetWith (p : Params) : State where
  regs := #v[0, 0, 0, 0, 0, 0, 0, spReset]
  pc := 0
  fl := 0
  mem := []
  status := .run
  fcause := 0
  fpc := 0
  fop := 0
  finfo := 0
  out := []
  trace := []
  params := p

/-- The machine right after reset (R230), with the parameters' default values (R5). -/
def State.reset : State := State.resetWith defaultParams

/-- The encoding of `STATUS` for a host interface: `RUN = 0`, `HALT = 1`, `FAULT = 2` (R32). -/
def Status.code : Status → Nat
  | .run => 0
  | .halt => 1
  | .fault => 2

end Sys2Proof.Machine
end

