-- ==== Sys2Proof/Machine/Ops.lean ====
section
/-! DEFINITION. The named operations over the state: registers, memory, the output and trace ports, halting, and
taking a fault. There is no return from a fault (R208), so none stands here. -/

namespace Sys2Proof.Machine

/-- What a step of the model answers. -/
abbrev Answer := Host.Outcome State Fault Refusal

/-- R8 `x[i]`: read general register `i`. No register is hardwired (R20). -/
def State.reg (s : State) (i : RegIdx) : Byte := s.regs[i]

/-- R8 `x[i] <- v`: write general register `i`. -/
def State.setReg (s : State) (i : RegIdx) (v : Byte) : State := { s with regs := s.regs.set i v }

/-- R8 `SP`, another name for `x[7]` (R21). -/
def State.sp (s : State) : Byte := s.reg spIndex

/-- R8 `SP <- v`. -/
def State.setSp (s : State) (v : Byte) : State := s.setReg spIndex v

/-- R8 `pc <- target`. -/
def State.setPc (s : State) (v : Byte) : State := { s with pc := v }

/-- R8 `FL <- v`. -/
def State.setFl (s : State) (v : Byte) : State := { s with fl := v }

/-- R51 `MemRead(a, 1)`. -/
def State.memRead (s : State) (a : Byte) : Byte := Memory.read s.mem a.toNat

/-- R51 `MemWrite(a, 1, v)`. -/
def State.memWrite (s : State) (a v : Byte) : State := { s with mem := Memory.write s.mem a.toNat v }

/-- R8, R214 `emit(v)`: "append the byte `v` to the output stream". -/
def State.emit (s : State) (v : Byte) : State := { s with out := s.out ++ [v] }

/-- R118 `halt`: `STATUS <- HALT`, and nothing else. -/
def State.halt (s : State) : State := { s with status := .halt }

/-- The faults of R200, each with the detail it records. -/
inductive Trap where
  /-- The byte at `pc` is no opcode (R201). -/
  | unknownOpcode
  /-- The operand byte `b` names no register (R202). -/
  | illegalRegister (b : Byte)
  /-- The address `a`, computed from `pc`, is past 255 (R203). -/
  | boundsFault (a : Nat)
  deriving DecidableEq, Repr

/-- The code a fault writes to `FCAUSE` (R200). -/
def trapCode : Trap → BitVec 8
  | .unknownOpcode => 1
  | .illegalRegister _ => 2
  | .boundsFault _ => 3

/-- The detail a fault writes to `FINFO` (R200). -/
def trapInfo : Trap → BitVec 9
  | .unknownOpcode => 0
  | .illegalRegister b => BitVec.ofNat 9 b.toNat
  | .boundsFault a => BitVec.ofNat 9 a

/-- Fault entry (R206): `STATUS <- FAULT; FCAUSE <- code(E); FPC <- pc; FOP <- op; FINFO <- info(E)` "and nothing
else". -/
def State.raise (s : State) (op : Byte) (e : Trap) : State :=
  { s with status := .fault, fcause := trapCode e, fpc := s.pc, fop := op, finfo := trapInfo e }

/-- The end of an instruction's checks: either the state its writes leave, or the entry of the first fault its
checks raise, from the state before the instruction (R110 steps 5 to 7, R206). `op` is its opcode byte. -/
def complete (op : Byte) (s : State) : Except Trap State → Answer
  | .ok t => .next t
  | .error e => .next (s.raise op e)

/-- R120: "When `STATUS` is `HALT` or `FAULT` the core has no step". The answer of a stopped core, and nothing for
a running one. DESIGN CHOICE (notes/assumptions/3.md): "no step" is a fault outcome of its own name. -/
def stopped (s : State) : Option Answer :=
  match s.status with
  | .run => none
  | .halt => some (.fault .halted)
  | .fault => some (.fault .faulted)

end Sys2Proof.Machine
end

