-- ==== Sys2Proof/Machine/Fetch.lean ====
section
/-! DEFINITION. Fetching an instruction's bytes (R111, R112), the trace entry (R215), and UnknownOpcode (R119). -/

namespace Sys2Proof.Machine

/-- The address `u8(pc + k)` of the byte `k` after the opcode byte. -/
def State.byteAddr (s : State) (k : Nat) : Byte := u8 (s.pc.toNat + k)

/-- R37: the opcode byte and "the two bytes following PC as potential operands", as memory stands before the
instruction. A byte the instruction does not use is not looked at (R112), and a byte past 255 that it does use is
checked before it is used (`opnd`). -/
def State.fetchBytes (s : State) : List Byte :=
  [s.memRead s.pc, s.memRead (s.byteAddr 1), s.memRead (s.byteAddr 2)]

/-- The entry R215 lists. -/
def State.traceEntry (s : State) : TraceEntry where
  pc := s.pc
  op := s.memRead s.pc
  byte1 := s.memRead (s.byteAddr 1)
  byte2 := s.memRead (s.byteAddr 2)
  regs := s.regs

/-- R110 step 3: "if tracing, record the trace entry". -/
def State.recordTrace (s : State) : State :=
  if s.params.traceEnable then { s with trace := s.trace ++ [s.traceEntry] } else s

/-- R119: the step at a byte that is no opcode takes the fault UnknownOpcode. -/
def unknownOpcode (s : State) : Answer := complete (s.memRead s.pc) s (.error .unknownOpcode)

end Sys2Proof.Machine
end

