-- ==== Sys2Proof/Machine/Operands.lean ====
section
/-! DEFINITION. The checks every instruction is written with: `opnd`, `reg` and `seqpc` (R113 to R115), and the
operand forms of R81 in the check order of R117. -/

namespace Sys2Proof.Machine

/-- An address computed from `pc`: past 255 it raises BoundsFault or is reduced modulo 256, as `BOUNDS_MODE` says
(R113, R114). -/
def State.bounded (s : State) (a : Nat) : Except Trap Byte :=
  if 255 < a then
    match s.params.boundsMode with
    | .fault => .error (.boundsFault a)
    | .wrap => .ok (u8 a)
  else .ok (u8 a)

/-- R113 `opnd(k)`: the bound check of operand position `k`, and the operand byte `b` that the fetch read at
`u8(pc + k)`. -/
def State.opnd (s : State) (k : Nat) (b : Byte) : Except Trap Byte :=
  match s.bounded (s.pc.toNat + k) with
  | .ok _ => .ok b
  | .error e => .error e

/-- R114 `seqpc(w)`: the sequential next pc of a `w`-byte instruction, and CALL's return address. -/
def State.seqpc (s : State) (w : Nat) : Except Trap Byte := s.bounded (s.pc.toNat + w)

/-- R115 `reg(b)`: the register an operand byte names. -/
def regOperand (b : Byte) : Except Trap RegIdx :=
  if h : b.toNat < nreg then .ok ⟨b.toNat, h⟩ else .error (.illegalRegister b)

/-- The operand of format `R`: `rA <- reg(opnd(1))`. -/
def State.operandR (s : State) (b1 : Byte) : Except Trap RegIdx := do
  let b ← s.opnd 1 b1
  regOperand b

/-- The operands of format `RR`: `rA <- reg(opnd(1)); rB <- reg(opnd(2))`. -/
def State.operandsRR (s : State) (b1 b2 : Byte) : Except Trap (RegIdx × RegIdx) := do
  let rA ← s.operandR b1
  let b ← s.opnd 2 b2
  let rB ← regOperand b
  pure (rA, rB)

/-- The operands of format `RI`: `rA <- reg(opnd(1)); imm <- opnd(2)`. -/
def State.operandsRI (s : State) (b1 b2 : Byte) : Except Trap (RegIdx × Byte) := do
  let rA ← s.operandR b1
  let imm ← s.opnd 2 b2
  pure (rA, imm)

end Sys2Proof.Machine
end

