-- ==== Sys2Proof/Machine/Alu.lean ====
section
/-! DEFINITION. The ALU instructions ADD, MUL and CMP (spec/41_alu.md). -/

namespace Sys2Proof.Machine

/-- ADD (R141): `x[rA] <- u8(x[rA] + x[rB])`, no flag written. -/
def execAdd (rA rB : Byte) (s : State) : Answer :=
  complete (opcodeOf (.add rA rB)) s do
    let (a, b) ← s.operandsRR rA rB
    let n ← s.seqpc 3
    pure ((s.setReg a (alu .add (s.reg a) (s.reg b))).setPc n)

/-- MUL (R142): `x[rA] <- u8(x[rA] * x[rB])`, no flag written. -/
def execMul (rA rB : Byte) (s : State) : Answer :=
  complete (opcodeOf (.mul rA rB)) s do
    let (a, b) ← s.operandsRR rA rB
    let n ← s.seqpc 3
    pure ((s.setReg a (alu .mul (s.reg a) (s.reg b))).setPc n)

/-- CMP (R143): the whole of `FL` is overwritten, no register is written. -/
def execCmp (rA rB : Byte) (s : State) : Answer :=
  complete (opcodeOf (.cmp rA rB)) s do
    let (a, b) ← s.operandsRR rA rB
    let n ← s.seqpc 3
    pure ((s.setFl (alu .cmp (s.reg a) (s.reg b))).setPc n)

end Sys2Proof.Machine
end

