-- ==== Sys2Proof/Machine/Stack.lean ====
section
/-! DEFINITION. The stack operations (R52, R58: unchecked, `SP` wraps modulo 256), PUSH and POP (spec/43_stack.md). -/

namespace Sys2Proof.Machine

/-- The cell a push writes: `SP` after its decrement (R52). -/
def State.pushAddr (s : State) : Byte := u8 (s.sp.toNat - 1)

/-- `SP <- u8(SP - 1)` (R170, R180). -/
def State.decSp (s : State) : State := s.setSp s.pushAddr

/-- `SP <- u8(SP + 1)` (R171, R181). -/
def State.incSp (s : State) : State := s.setSp (u8 (s.sp.toNat + 1))

/-- PUSH (R170): `SP <- u8(SP - 1); MemWrite(SP, 1, x[rA])`, both `SP` and `x[rA]` read after the decrement. -/
def execPush (rA : Byte) (s : State) : Answer :=
  complete (opcodeOf (.push rA)) s do
    let a ← s.operandR rA
    let n ← s.seqpc 2
    let s1 := s.decSp
    pure ((s1.memWrite s1.sp (s1.reg a)).setPc n)

/-- POP (R171): `x[rA] <- MemRead(SP, 1); SP <- u8(SP + 1)`, `SP` of the second statement read after the first. -/
def execPop (rA : Byte) (s : State) : Answer :=
  complete (opcodeOf (.pop rA)) s do
    let a ← s.operandR rA
    let n ← s.seqpc 2
    let s1 := s.setReg a (s.memRead s.sp)
    pure (s1.incSp.setPc n)

end Sys2Proof.Machine
end

