-- ==== Sys2Proof/Machine/Control.lean ====
section
/-! DEFINITION. Control transfer: CALL, RET, JMP, JEQ, JNE (spec/44_control.md). -/

namespace Sys2Proof.Machine

/-- CALL (R180): `SP <- u8(SP - 1); MemWrite(SP, 1, ret); pc <- x[rA]`, `x[rA]` read after the decrement. -/
def execCall (rA : Byte) (s : State) : Answer :=
  complete (opcodeOf (.call rA)) s do
    let a ← s.operandR rA
    let ra ← s.seqpc 2
    let s1 := s.decSp
    let s2 := s1.memWrite s1.sp ra
    pure (s2.setPc (s2.reg a))

/-- RET (R181): `t <- MemRead(SP, 1); SP <- u8(SP + 1); pc <- t`. No check. -/
def execRet (s : State) : Answer := .next (s.incSp.setPc (s.memRead s.sp))

/-- JMP (R182): `pc <- x[rA]`, with no `seqpc`. -/
def execJmp (rA : Byte) (s : State) : Answer :=
  complete (opcodeOf (.jmp rA)) s do
    let a ← s.operandR rA
    pure (s.setPc (s.reg a))

/-- A conditional jump (R183, R184): the register is checked whether or not the jump is taken, the sequential next
pc only when it is not. `op` is the opcode byte. -/
def condJump (op : Byte) (taken : Bool) (rA : Byte) (s : State) : Answer :=
  complete op s do
    let a ← s.operandR rA
    if taken then pure (s.setPc (s.reg a))
    else do
      let n ← s.seqpc 2
      pure (s.setPc n)

/-- JEQ (R183): taken if `FL[0] = 1`. -/
def execJeq (rA : Byte) (s : State) : Answer := condJump (opcodeOf (.jeq rA)) (flagE s.fl) rA s

/-- JNE (R184): taken if `FL[0] = 0`. -/
def execJne (rA : Byte) (s : State) : Answer := condJump (opcodeOf (.jne rA)) (!flagE s.fl) rA s

end Sys2Proof.Machine
end

