-- ==== Sys2Proof/Machine/Data.lean ====
section
/-! DEFINITION. Register load and output: LDI and PRN (spec/42_data.md). -/

namespace Sys2Proof.Machine

/-- LDI (R160): `x[rA] <- imm`. -/
def execLdi (rA imm : Byte) (s : State) : Answer :=
  complete (opcodeOf (.ldi rA imm)) s do
    let (a, v) ← s.operandsRI rA imm
    let n ← s.seqpc 3
    pure ((s.setReg a v).setPc n)

/-- PRN (R161): `emit(x[rA])`. -/
def execPrn (rA : Byte) (s : State) : Answer :=
  complete (opcodeOf (.prn rA)) s do
    let a ← s.operandR rA
    let n ← s.seqpc 2
    pure ((s.emit (s.reg a)).setPc n)

end Sys2Proof.Machine
end

