-- ==== Sys2Proof/Machine/System.lean ====
section
/-! DEFINITION. HLT (spec/40_dispatch.md section 2). -/

namespace Sys2Proof.Machine

/-- HLT (R118): `STATUS <- HALT`; `pc` keeps the address of the HLT. -/
def execHlt (s : State) : Answer := .next s.halt

end Sys2Proof.Machine
end

