-- ==== Sys2Proof/Machine/Dispatch.lean ====
section
/-! DEFINITION. One arm per instruction: its meaning. -/

namespace Sys2Proof.Machine

/-- The instruction's own rule: its checks, then its writes (R122 `exec(op)`). -/
def exec (i : Instr) (s : State) : Host.Outcome State Fault Refusal :=
  match i with
  | .hlt => Sys2Proof.Machine.execHlt s
  | .ldi rA imm => Sys2Proof.Machine.execLdi rA imm s
  | .prn rA => Sys2Proof.Machine.execPrn rA s
  | .mul rA rB => Sys2Proof.Machine.execMul rA rB s
  | .add rA rB => Sys2Proof.Machine.execAdd rA rB s
  | .push rA => Sys2Proof.Machine.execPush rA s
  | .pop rA => Sys2Proof.Machine.execPop rA s
  | .call rA => Sys2Proof.Machine.execCall rA s
  | .ret => Sys2Proof.Machine.execRet s
  | .cmp rA rB => Sys2Proof.Machine.execCmp rA rB s
  | .jmp rA => Sys2Proof.Machine.execJmp rA s
  | .jeq rA => Sys2Proof.Machine.execJeq rA s
  | .jne rA => Sys2Proof.Machine.execJne rA s

end Sys2Proof.Machine
end

