-- ==== Sys2Proof/Machine/Step.lean ====
section
/-! DEFINITION. One step of the core (R122), and the word the host places where the next step fetches. -/

namespace Sys2Proof.Machine

/-- R122 `step()`: a running core fetches and decodes the bytes at `pc`, takes UnknownOpcode or records the trace
entry, and executes the instruction. It takes the one machine state alone and answers one (R213). -/
def step (s : State) : Host.Outcome State Fault Refusal :=
  match stopped s with
  | some r => r
  | none =>
    match decode s.fetchBytes with
    | .error _ => unknownOpcode s
    | .ok (i, _) => exec i s.recordTrace

/-- The state with the bytes of a table word stored where the next step fetches: at `pc`, `u8(pc + 1)` and
`u8(pc + 2)` (R53), and with the core running, which a step needs (R110). It stands for the host load of R232
(notes/assumptions/7.md). -/
def State.withFetchWord (s : State) (nbits w : Nat) : State :=
  match tableBytes nbits w with
  | [b0, b1, b2] =>
    { ((s.memWrite s.pc b0).memWrite (s.byteAddr 1) b1).memWrite (s.byteAddr 2) b2 with status := .run }
  | _ => s

end Sys2Proof.Machine
end

