-- ==== Sys2Proof/Asm.lean ====
section
/-! DEFINITION. The assembly spellings of an instruction (R91). No rule of the machine depends on them. -/

namespace Sys2Proof

/-- The spellings of a register: `R0` to `R7`, and `SP` for `R7`; none for a byte that names no register (R91). -/
def registerSpellings (b : Byte) : List String :=
  if b.toNat < 7 then ["R" ++ Nat.repr b.toNat]
  else if b.toNat = 7 then ["R7", "SP"]
  else []

/-- The spellings of LDI's immediate: decimal, `0x` hexadecimal, `0b` binary (R91). DESIGN CHOICE
(notes/assumptions/9.md): two upper-case hexadecimal digits, eight binary digits. -/
def immediateSpellings (v : Byte) : List String :=
  [Nat.repr v.toNat,
    "0x" ++ String.ofList [Nat.digitChar (v.toNat / 16) |>.toUpper, Nat.digitChar (v.toNat % 16) |>.toUpper],
    "0b" ++ String.ofList ([7, 6, 5, 4, 3, 2, 1, 0].map fun k => if v.getLsbD k then '1' else '0')]

/-- A mnemonic and one operand. -/
def spell1 (mnemonic : String) (a : List String) : List String := a.map fun x => mnemonic ++ " " ++ x

/-- A mnemonic and two operands "separated by a comma" (R91). -/
def spell2 (mnemonic : String) (a b : List String) : List String :=
  a.flatMap fun x => b.map fun y => mnemonic ++ " " ++ x ++ ", " ++ y

/-- Every spelling of an instruction (R91); none if an operand names no register. -/
def Instr.spellings : Instr → List String
  | .hlt => ["HLT"]
  | .ldi rA imm => spell2 "LDI" (registerSpellings rA) (immediateSpellings imm)
  | .prn rA => spell1 "PRN" (registerSpellings rA)
  | .mul rA rB => spell2 "MUL" (registerSpellings rA) (registerSpellings rB)
  | .add rA rB => spell2 "ADD" (registerSpellings rA) (registerSpellings rB)
  | .push rA => spell1 "PUSH" (registerSpellings rA)
  | .pop rA => spell1 "POP" (registerSpellings rA)
  | .call rA => spell1 "CALL" (registerSpellings rA)
  | .ret => ["RET"]
  | .cmp rA rB => spell2 "CMP" (registerSpellings rA) (registerSpellings rB)
  | .jmp rA => spell1 "JMP" (registerSpellings rA)
  | .jeq rA => spell1 "JEQ" (registerSpellings rA)
  | .jne rA => spell1 "JNE" (registerSpellings rA)

end Sys2Proof
end

