-- ==== Sys2Proof/Machine/Run.lean ====
section
/-! DEFINITION. A run: the one machine state, stepped (R213, R233, R234). -/

namespace Sys2Proof.Machine

/-- The state of a run after at most `n` steps. A run has exactly one core, one thread and one state (R213: "There is
exactly one Machine State per run"): each state is the step of the one before, and nothing else reaches it in between
(R233). Where there is no step the run has ended, and the core holds the state unchanged for the host to read (R234).
The number of steps belongs to whoever follows the run, not to the core (R123). -/
def run : Nat → State → State
  | 0, s => s
  | n + 1, s =>
    match step s with
    | .next t => run n t
    | .fault _ => s
    | .refused _ => s

end Sys2Proof.Machine
end

