-- ==== Sys2Proof/Machine/Load.lean ====
section
/-! DEFINITION. The host's load of a program image (R232) and its load error (R205). -/

namespace Sys2Proof.Machine

/-- Why a load fails. -/
inductive LoadError where
  /-- The image is longer than 256 bytes; "the core never starts" (R232, R205). -/
  | imageTooLong (length : Nat)
  deriving DecidableEq, Repr

/-- Write the bytes of an image from address `a` up, in address order. -/
def Memory.place : List Host.Cell → Nat → List Byte → List Host.Cell
  | m, _, [] => m
  | m, a, v :: image => Memory.place (Memory.write m a v) (a + 1) image

/-- R232: the state with an image of 0 to 256 bytes written to `mem[0]` up. The host calls it between reset and
the first step. -/
def loadImage (image : List Byte) (s : State) : Except LoadError State :=
  if image.length ≤ memSize then .ok { s with mem := Memory.place s.mem 0 image }
  else .error (.imageTooLong image.length)

/-- R232: the launch state of a run is "the reset state of rule R230 with `mem[0..n-1]` set to the image". -/
def launch (p : Params) (image : List Byte) : Except LoadError State := loadImage image (State.resetWith p)

end Sys2Proof.Machine
end

