-- ==== Sys2Proof/WellFormed.lean ====
section
/-! DEFINITION. Which instructions name registers that exist. -/

namespace Sys2Proof

/-- R84: "A value 0 to 7 selects `x[value]`. A value 8 to 255 names no register". -/
def namesRegister (b : Byte) : Bool := decide (b.toNat < nreg)

/-- Every register operand names a register (R84); the immediate of LDI is any byte (R85). An instruction that is
not well formed still decodes and still runs: it raises IllegalRegister (R202). -/
def Instr.wellFormed : Instr → Bool
  | .hlt => true
  | .ldi rA _ => namesRegister rA
  | .prn rA => namesRegister rA
  | .mul rA rB => namesRegister rA && namesRegister rB
  | .add rA rB => namesRegister rA && namesRegister rB
  | .push rA => namesRegister rA
  | .pop rA => namesRegister rA
  | .call rA => namesRegister rA
  | .ret => true
  | .cmp rA rB => namesRegister rA && namesRegister rB
  | .jmp rA => namesRegister rA
  | .jeq rA => namesRegister rA
  | .jne rA => namesRegister rA

end Sys2Proof
end

