-- ==== Sys2Proof/Safety.lean ====
section
/-! DEFINITION. The terms claims about CORE are stated in: fault entries written out in full, the bounds an
instruction needs, the ordered checks of R117, and the invariant every step keeps. -/

namespace Sys2Proof.Machine

/-- The thirteen opcode bytes of R87, its hexadecimal column. -/
def opcodes : List Byte :=
  [0x01, 0x82, 0x47, 0xA2, 0xA0, 0x45, 0x46, 0x50, 0x11, 0xA7, 0x54, 0x55, 0x56]

/-- The state that fault entry leaves (R206), written out in full: cause code, opcode byte and detail. -/
def State.faultedWith (s : State) (op : Byte) (code : BitVec 8) (info : BitVec 9) : State :=
  { s with status := .fault, fcause := code, fpc := s.pc, fop := op, finfo := info }

/-- The address `pc + n` is in memory or is reduced modulo 256 (R113, R114). -/
abbrev State.InBounds (s : State) (n : Nat) : Prop := s.pc.toNat + n ≤ 255 ∨ s.params.boundsMode = .wrap

/-- The address `pc + n` is past 255 and `BOUNDS_MODE = fault` (R113, R114). -/
abbrev State.PastTop (s : State) (n : Nat) : Prop := 255 < s.pc.toNat + n ∧ s.params.boundsMode = .fault

/-- The faults of operand byte 1 as a register (R117 checks 2 and 3), each with the whole state it leaves. -/
def FirstOperandFaults (i : Instr) (op b1 : Byte) (s : State) : Prop :=
  (s.PastTop 1 → exec i s = .next (s.faultedWith op 3 256)) ∧
  (s.InBounds 1 → 7 < b1.toNat → exec i s = .next (s.faultedWith op 2 (b1.setWidth 9)))

/-- The bound of operand byte 2 (R117 check 4), once the first operand has passed. -/
def SecondOperandBound (i : Instr) (op b1 : Byte) (s : State) : Prop :=
  s.InBounds 1 → b1.toNat ≤ 7 → s.PastTop 2 → exec i s = .next (s.faultedWith op 3 256)

/-- Operand byte 2 as a register (R117 check 5), once the checks before it have passed. -/
def SecondOperandRegister (i : Instr) (op b1 b2 : Byte) (s : State) : Prop :=
  s.InBounds 2 → b1.toNat ≤ 7 → 7 < b2.toNat → exec i s = .next (s.faultedWith op 2 (b2.setWidth 9))

/-- The bound of the sequential next pc of a `w`-byte instruction (R117 check 6), once every operand has passed. -/
def SuccessorBound (i : Instr) (op : Byte) (w : Nat) (s : State) : Prop :=
  s.InBounds (w - 1) → i.wellFormed = true → s.PastTop w → exec i s = .next (s.faultedWith op 3 256)

/-- Every fault of a format `RR` instruction: ADD, MUL, CMP. -/
def FaultsOfRR (i : Instr) (op b1 b2 : Byte) (s : State) : Prop :=
  FirstOperandFaults i op b1 s ∧ SecondOperandBound i op b1 s ∧ SecondOperandRegister i op b1 b2 s ∧
    SuccessorBound i op 3 s

/-- Every fault of a format `R` instruction that evaluates `seqpc(2)`: PRN, PUSH, POP, CALL. -/
def FaultsOfR (i : Instr) (op b1 : Byte) (s : State) : Prop :=
  FirstOperandFaults i op b1 s ∧ SuccessorBound i op 2 s

/-- One check of an instruction: whether it fails, and the cause code and detail it then records. -/
structure Check where
  /-- The check fails. -/
  fails : Bool
  /-- `FCAUSE` of its fault. -/
  code : BitVec 8
  /-- `FINFO` of its fault. -/
  info : BitVec 9

/-- The bound check of `pc + n`. -/
def boundCheck (s : State) (n : Nat) : Check :=
  ⟨decide (255 < s.pc.toNat + n) && decide (s.params.boundsMode = .fault), 3, 256⟩

/-- The range check of a register operand byte. -/
def registerCheck (b : Byte) : Check := ⟨decide (7 < b.toNat), 2, b.setWidth 9⟩

/-- R117: the checks of an instruction after decoding, in order. JMP, RET and HLT evaluate no `seqpc`, JEQ and JNE
only when not taken (R114). -/
def checksOf (s : State) : Instr → List Check
  | .hlt => []
  | .ret => []
  | .ldi a _ => [boundCheck s 1, registerCheck a, boundCheck s 2, boundCheck s 3]
  | .mul a b => [boundCheck s 1, registerCheck a, boundCheck s 2, registerCheck b, boundCheck s 3]
  | .add a b => [boundCheck s 1, registerCheck a, boundCheck s 2, registerCheck b, boundCheck s 3]
  | .cmp a b => [boundCheck s 1, registerCheck a, boundCheck s 2, registerCheck b, boundCheck s 3]
  | .prn a => [boundCheck s 1, registerCheck a, boundCheck s 2]
  | .push a => [boundCheck s 1, registerCheck a, boundCheck s 2]
  | .pop a => [boundCheck s 1, registerCheck a, boundCheck s 2]
  | .call a => [boundCheck s 1, registerCheck a, boundCheck s 2]
  | .jmp a => [boundCheck s 1, registerCheck a]
  | .jeq a => [boundCheck s 1, registerCheck a] ++ (if s.fl.getLsbD 0 then [] else [boundCheck s 2])
  | .jne a => [boundCheck s 1, registerCheck a] ++ (if s.fl.getLsbD 0 then [boundCheck s 2] else [])

/-- R203's list: the values of `pc` at which an instruction whose register operands are in range raises BoundsFault
when `BOUNDS_MODE = fault`. -/
def boundsFaultAt (s : State) : Instr → Prop
  | .hlt => False
  | .ret => False
  | .ldi _ _ => 0xFD ≤ s.pc.toNat
  | .mul _ _ => 0xFD ≤ s.pc.toNat
  | .add _ _ => 0xFD ≤ s.pc.toNat
  | .cmp _ _ => 0xFD ≤ s.pc.toNat
  | .prn _ => 0xFE ≤ s.pc.toNat
  | .push _ => 0xFE ≤ s.pc.toNat
  | .pop _ => 0xFE ≤ s.pc.toNat
  | .call _ => 0xFE ≤ s.pc.toNat
  | .jmp _ => s.pc.toNat = 0xFF
  | .jeq _ => s.pc.toNat = 0xFF ∨ (s.pc.toNat = 0xFE ∧ s.fl.getLsbD 0 = false)
  | .jne _ => s.pc.toNat = 0xFF ∨ (s.pc.toNat = 0xFE ∧ s.fl.getLsbD 0 = true)

/-- The fault record and `STATUS` are the ones of `s` (an instruction that completes), or the whole state is a fault
entry from `s` (R206). -/
def RecordKeptOrFaultEntry (s t : State) : Prop :=
  (t.status = s.status ∧ t.fcause = s.fcause ∧ t.fpc = s.fpc ∧ t.fop = s.fop ∧ t.finfo = s.finfo) ∨
    ∃ op code info, t = s.faultedWith op code info

/-- Every byte of memory reads as before. -/
def SameMemory (s t : State) : Prop := ∀ a : Byte, t.memRead a = s.memRead a

/-- The state without its observation by the trace port (R215): the trace emptied and `TRACE_ENABLE` off. -/
def State.untraced (s : State) : State := { s with trace := [], params := { s.params with traceEnable := false } }

/-- What every step of a run keeps. -/
structure Inv (s : State) : Prop where
  /-- Memory is in canonical form. -/
  memory : Memory.wf s.mem = true
  /-- `FL` is 0 or what a CMP writes, so bits 7:3 are 0 (R29, R31). -/
  flags : s.fl = 0x00 ∨ s.fl = 0x01 ∨ s.fl = 0x02 ∨ s.fl = 0x04
  /-- Without a fault the fault record is as reset leaves it (R33: "written once, by the fault"). -/
  noRecord : s.status ≠ .fault → s.fcause = 0 ∧ s.fpc = 0 ∧ s.fop = 0 ∧ s.finfo = 0
  /-- After a fault the record names the address and byte of the faulting instruction, and cause and detail fit each
  other (R33, R200, R116). -/
  record : s.status = .fault → s.fpc = s.pc ∧ s.fop = s.memRead s.pc ∧
    ((s.fcause = 1 ∧ s.finfo = 0 ∧ s.fop ∉ opcodes) ∨
      (s.fcause = 2 ∧ 8 ≤ s.finfo.toNat ∧ s.finfo.toNat ≤ 255 ∧ s.fop ∈ opcodes) ∨
      (s.fcause = 3 ∧ s.finfo = 256 ∧ s.fop ∈ opcodes ∧ s.params.boundsMode = .fault))
  /-- A halted core stands at an HLT (R118). -/
  haltedAtHlt : s.status = .halt → s.memRead s.pc = 0x01
  /-- Nothing is traced when tracing is off (R39). -/
  traceOff : s.params.traceEnable = false → s.trace = []

end Sys2Proof.Machine
end

