-- ==== Sys2Proof/Certificates/Slice0/Obligations.lean ====
section
/-! DEFINITION. The statements for the provers, from the numbered rules of spec/. -/

open Sys2Proof Sys2Proof.Machine

/-! ## Reset, load, the invariant -/

/-- R23, R27: every piece of state has its reset value, under any parameters, and `State.reset` is such a state. -/
def Obligations.ResetSetsEveryField : Prop :=
  (∀ p : Params, ∀ s : State, s = State.resetWith p →
    (∀ r : RegIdx, r ≠ 7 → s.reg r = 0) ∧ s.reg 7 = 0xF4 ∧ s.pc = 0 ∧ s.fl = 0 ∧ (∀ a : Byte, s.memRead a = 0) ∧
    s.status = .run ∧ s.fcause = 0 ∧ s.fpc = 0 ∧ s.fop = 0 ∧ s.finfo = 0 ∧ s.out = [] ∧ s.trace = []) ∧
  ∃ p : Params, State.reset = State.resetWith p

/-- The invariant holds at reset under any parameters, and at every launch state, whatever the image. The clause on the
form of memory rests on notes/assumptions/6.md. -/
def Obligations.ResetAndLaunchMeetInvariant : Prop :=
  (∀ p : Params, Inv (State.resetWith p)) ∧
  ∀ (p : Params) (image : List Byte) (s : State), launch p image = .ok s → Inv s

/-- Every step keeps the invariant, from every state that meets it. The clause on the form of memory rests on
notes/assumptions/6.md (the model's list of cells). -/
def Obligations.StepKeepsInvariant : Prop := ∀ s t : State, Inv s → step s = .next t → Inv t

/-- R232: an image of at most 256 bytes stands at address 0 up, every other cell is 0, everything else is as reset
leaves it; a longer image is a load error. -/
def Obligations.LaunchPlacesTheImage : Prop :=
  ∀ (p : Params) (image : List Byte),
    (image.length ≤ 256 → ∃ s, launch p image = .ok s ∧ s = { State.resetWith p with mem := s.mem } ∧
      ∀ a : Byte, s.memRead a = if h : a.toNat < image.length then image[a.toNat] else 0) ∧
    (256 < image.length → ∃ e, launch p image = .error e)

/-- Two canonical memories that read alike are one list, so that equal machines are equal states (the model's form of
memory, notes/assumptions/6.md). -/
def Obligations.CanonicalMemoryIsUnique : Prop :=
  ∀ m n : List Host.Cell, Memory.wf m = true → Memory.wf n = true →
    (∀ a : Nat, a < 256 → Memory.read m a = Memory.read n a) → m = n

/-! ## The step -/

/-- A running core whose bytes at `pc`, `u8(pc + 1)`, `u8(pc + 2)` decode to `i` runs `exec i`, after recording the
trace entry when tracing; the step adds nothing else. It holds of every decoded instruction, the ones whose register
operand is out of range (R89) included. -/
def Obligations.StepRunsDecodedInstruction : Prop :=
  ∀ (s : State) (i : Instr) (rest : List Byte), s.status = .run →
    decode [s.memRead s.pc, s.memRead (s.pc + 1), s.memRead (s.pc + 2)] = .ok (i, rest) →
    step s = exec i (if s.params.traceEnable then
      { s with trace := s.trace ++
        [⟨s.pc, s.memRead s.pc, s.memRead (s.pc + 1), s.memRead (s.pc + 2), s.regs⟩] } else s)

/-- R119: a byte outside R87 stops the core with UnknownOpcode, recording the pc and the byte; nothing else changes
and no trace entry is recorded. -/
def Obligations.UnknownOpcodeStopsTheCore : Prop :=
  ∀ s : State, s.status = .run → s.memRead s.pc ∉ opcodes →
    step s = .next { s with status := .fault, fcause := 1, fpc := s.pc, fop := s.memRead s.pc, finfo := 0 }

/-- R120: when `STATUS` is HALT or FAULT there is no next state. -/
def Obligations.StoppedCoreHasNoStep : Prop :=
  ∀ s t : State, s.status = .halt ∨ s.status = .fault → step s ≠ .next t

/-- A running core always has a next state: every byte decodes to an instruction or to UnknownOpcode, and every fault
of an instruction is taken. -/
def Obligations.RunningCoreAlwaysSteps : Prop := ∀ s : State, s.status = .run → ∃ t, step s = .next t

/-- R117: after decoding, the first failing check of the instruction is the fault reported; when no check fails the
instruction raises none. Check (1) is the byte that is no opcode. -/
def Obligations.FirstFailingCheckIsReported : Prop :=
  ∀ s : State, s.status = .run →
    (s.memRead s.pc ∉ opcodes → step s = .next (s.faultedWith (s.memRead s.pc) 1 0)) ∧
    ∀ (i : Instr) (rest : List Byte), decode s.fetchBytes = .ok (i, rest) →
      match (checksOf s i).find? (·.fails) with
      | some c => step s = .next (s.recordTrace.faultedWith (s.memRead s.pc) c.code c.info)
      | none => ∃ t, step s = .next t ∧ t.status ≠ .fault

/-- R206: the state after a fault is the state before with `STATUS` and the fault record written, and with the trace
entry if one is recorded; `pc`, registers, `FL`, memory and `OUT` keep their values, and no step follows. -/
def Obligations.FaultsArePrecise : Prop :=
  ∀ s t : State, step s = .next t → t.status = .fault →
    t = { s with status := .fault, fcause := t.fcause, fpc := s.pc, fop := s.memRead s.pc, finfo := t.finfo,
                 trace := t.trace } ∧
    ((t.fcause = 1 ∧ t.finfo = 0) ∨ (t.fcause = 2 ∧ 8 ≤ t.finfo.toNat ∧ t.finfo.toNat ≤ 255) ∨
      (t.fcause = 3 ∧ t.finfo = 256)) ∧
    ∀ u : State, step t ≠ .next u

/-- R116: every BoundsFault carries the address 256, and with `BOUNDS_MODE = wrap` there is none. -/
def Obligations.BoundsFaultCarries256 : Prop :=
  ∀ s t : State, step s = .next t → t.status = .fault → t.fcause = 3 →
    t.finfo = 256 ∧ s.params.boundsMode = .fault

/-- R203: an instruction whose register operands are in range raises BoundsFault exactly when `BOUNDS_MODE = fault` and
`pc` is in the rule's list; no instruction raises it elsewhere, whatever its operands, and the record always holds
`pc`, the opcode and 256. -/
def Obligations.BoundsFaultExactlyNearTheTop : Prop :=
  ∀ (i : Instr) (s : State), s.status = .run →
    (i.wellFormed = true → s.params.boundsMode = .fault → boundsFaultAt s i →
      exec i s = .next (s.faultedWith (opcodeOf i) 3 256)) ∧
    (i.wellFormed = true → ¬ (s.params.boundsMode = .fault ∧ boundsFaultAt s i) →
      ∃ t, exec i s = .next t ∧ t.status ≠ .fault) ∧
    ∀ t, exec i s = .next t → t.status = .fault → t.fcause = 3 →
      s.params.boundsMode = .fault ∧ boundsFaultAt s i ∧ t = s.faultedWith (opcodeOf i) 3 256

/-- R40: the parameters are fixed for a run: no step changes them. -/
def Obligations.ParametersNeverChange : Prop := ∀ s t : State, step s = .next t → t.params = s.params

/-! ## Whole-machine rules on flags, output, memory and the trace -/

/-- R29: only CMP changes `FL`, a CMP that completes leaves exactly one of 0x01, 0x02, 0x04 in it, and no step moves
`FL` to a register or memory: with any other flags value the registers and memory after the step are the same. -/
def Obligations.OnlyCmpWritesFlags : Prop :=
  ∀ s t : State, step s = .next t →
    (s.memRead s.pc ≠ 0xA7 → t.fl = s.fl) ∧
    (s.memRead s.pc = 0xA7 → t.status = .fault ∨ t.fl = 0x01 ∨ t.fl = 0x02 ∨ t.fl = 0x04) ∧
    ∀ f : Byte, ∃ t', step { s with fl := f } = .next t' ∧ t'.regs = t.regs ∧ t'.mem = t.mem

/-- R30: no step depends on `FL` except through bit 0, and only at a JEQ or JNE byte: with another flags value that
agrees in bit 0, or at any other byte, the step does the same to everything but `FL`, which keeps the other value unless
a CMP completes and overwrites it. -/
def Obligations.FlagsReadOnlyThroughBitE : Prop :=
  ∀ (s t : State) (f : Byte), step s = .next t →
    (f.getLsbD 0 = s.fl.getLsbD 0 ∨ (s.memRead s.pc ≠ 0x55 ∧ s.memRead s.pc ≠ 0x56)) →
    step { s with fl := f } =
      .next { t with fl := if s.memRead s.pc = 0xA7 ∧ t.status = .run then t.fl else f }

/-- Only PRN emits: a step appends at most one byte to `OUT`, only at a PRN byte, and the byte is that of the register
its operand names, if it completes. -/
def Obligations.OnlyPrnEmits : Prop :=
  ∀ s t : State, step s = .next t →
    t.out = s.out ∨
      (s.memRead s.pc = 0x47 ∧ ∃ a : RegIdx, (s.memRead (s.pc + 1)).toNat = a.val ∧ t.out = s.out ++ [s.reg a])

/-- Only PUSH and CALL change memory, and only the cell `SP` names after its decrement. -/
def Obligations.OnlyPushAndCallWriteMemory : Prop :=
  ∀ (s t : State) (a : Byte), step s = .next t → t.memRead a ≠ s.memRead a →
    (s.memRead s.pc = 0x45 ∨ s.memRead s.pc = 0x50) ∧ a = s.pushAddr

/-- R215: with tracing on, a step at one of the thirteen opcodes records one entry, holding what stands before the
instruction executes; any other step records none. -/
def Obligations.TraceRecordsDecodedSteps : Prop :=
  ∀ s t : State, step s = .next t →
    t.trace = if s.params.traceEnable = true ∧ s.memRead s.pc ∈ opcodes then
      s.trace ++ [⟨s.pc, s.memRead s.pc, s.memRead (s.pc + 1), s.memRead (s.pc + 2), s.regs⟩] else s.trace

/-- R39: no architectural state depends on the trace: two states that differ only in the trace recorded so far and in
`TRACE_ENABLE` step to states that differ only in those, or neither has a step. -/
def Obligations.TraceDoesNotInfluenceTheCore : Prop :=
  ∀ s s' : State, s.untraced = s'.untraced →
    (∀ t, step s = .next t → ∃ t', step s' = .next t' ∧ t.untraced = t'.untraced) ∧
    ((∀ t, step s ≠ .next t) → ∀ t', step s' ≠ .next t')

/-! ## Decoding and the ALU -/

/-- Decode of encode is the instruction, with every operand at every value, in front of any bytes. -/
def Obligations.DecodeOfEncode : Prop :=
  ∀ (i : Instr) (rest : List Byte), decode (encode i ++ rest) = .ok (i, rest)

/-- Each list of bytes has one meaning: what decodes to an instruction is that instruction's encoding. -/
def Obligations.EncodeOfDecode : Prop :=
  ∀ (bs rest : List Byte) (i : Instr), decode bs = .ok (i, rest) → bs = encode i ++ rest

/-- R89: every opcode byte decodes to one of the thirteen instructions, whatever its operand bytes, or to
UnknownOpcode; the operand bytes never change which instruction it is, and an operand out of range is a fault of
that instruction. -/
def Obligations.EveryByteDecodesOrIsUnknown : Prop :=
  ∀ op : Byte,
    (op ∈ opcodes → ∀ (b1 b2 : Byte) (rest : List Byte), ∃ i rest', decode (op :: b1 :: b2 :: rest) = .ok (i, rest') ∧
      opcodeOf i = op ∧ (i.wellFormed = false → ∀ s : State, ∃ t, exec i s = .next t ∧ t.status = .fault ∧ t.fop = op)) ∧
    (op ∉ opcodes → ∀ rest : List Byte, decode (op :: rest) = .error (.unknownOpcode op))

/-- R87: the opcode map, row by row. -/
def Obligations.DecodeFollowsTheOpcodeMap : Prop :=
  ∀ (b1 b2 : Byte) (rest : List Byte),
    decode (0x01 :: rest) = .ok (.hlt, rest) ∧
    decode (0x82 :: b1 :: b2 :: rest) = .ok (.ldi b1 b2, rest) ∧
    decode (0x47 :: b1 :: rest) = .ok (.prn b1, rest) ∧
    decode (0xA2 :: b1 :: b2 :: rest) = .ok (.mul b1 b2, rest) ∧
    decode (0xA0 :: b1 :: b2 :: rest) = .ok (.add b1 b2, rest) ∧
    decode (0x45 :: b1 :: rest) = .ok (.push b1, rest) ∧
    decode (0x46 :: b1 :: rest) = .ok (.pop b1, rest) ∧
    decode (0x50 :: b1 :: rest) = .ok (.call b1, rest) ∧
    decode (0x11 :: rest) = .ok (.ret, rest) ∧
    decode (0xA7 :: b1 :: b2 :: rest) = .ok (.cmp b1 b2, rest) ∧
    decode (0x54 :: b1 :: rest) = .ok (.jmp b1, rest) ∧
    decode (0x55 :: b1 :: rest) = .ok (.jeq b1, rest) ∧
    decode (0x56 :: b1 :: rest) = .ok (.jne b1, rest) ∧
    ∀ op : Byte, op ∉ opcodes → decode (op :: rest) = .error (.unknownOpcode op)

/-- A few words written out from the binary column of R87 and the operands of the spec's examples. -/
def Obligations.SampleWordsDecode : Prop :=
  decodeTableWord 8 0b00000001 = some .hlt ∧
  decodeTableWord 24 0b000010000000000010000010 = some (.ldi 0 8) ∧
  decodeTableWord 24 0b000000010000000010100000 = some (.add 0 1) ∧
  decodeTableWord 16 0b0000000101000110 = some (.pop 1) ∧
  decodeTableWord 16 0b0000001001010101 = some (.jeq 2)

/-- R140: the four operations of the ALU, on the unsigned values of their operands. -/
def Obligations.AluResults : Prop :=
  ∀ a b : Byte,
    (alu .add a b).toNat = (a.toNat + b.toNat) % 256 ∧
    ((alu .sub a b).toNat : Int) = ((a.toNat : Int) - b.toNat) % 256 ∧
    (alu .mul a b).toNat = (a.toNat * b.toNat) % 256 ∧
    (a.toNat = b.toNat → alu .cmp a b = 0x01) ∧
    (b.toNat < a.toNat → alu .cmp a b = 0x02) ∧
    (a.toNat < b.toNat → alu .cmp a b = 0x04)

/-! ## The instructions -/

/-- R118 HLT: `STATUS <- HALT`, everything else unchanged, at any address; the core then has no further step. HLT is
the only normal end: a step leads to `STATUS = HALT` exactly when the byte at `pc` is 0x01, and that step keeps `pc`. -/
def Obligations.HltHalts : Prop :=
  (∀ s : State, exec .hlt s = .next { s with status := .halt }) ∧
  (∀ s t u : State, exec .hlt s = .next t → step t ≠ .next u) ∧
  ∀ s t : State, step s = .next t → ((t.status = .halt ↔ s.memRead s.pc = 0x01) ∧ (t.status = .halt → t.pc = s.pc))

/-- R160 LDI: `x[rA] <- imm`, pc + 3; its faults in order. -/
def Obligations.LdiLoadsTheImmediate : Prop :=
  ∀ (rA imm : Byte) (s : State),
    (∀ a : RegIdx, rA.toNat = a.val → s.InBounds 3 →
      exec (.ldi rA imm) s = .next { s with regs := s.regs.set a imm, pc := s.pc + 3 }) ∧
    FirstOperandFaults (.ldi rA imm) 0x82 rA s ∧ SecondOperandBound (.ldi rA imm) 0x82 rA s ∧
    SuccessorBound (.ldi rA imm) 0x82 3 s

/-- R161 PRN: the register's byte is appended to `OUT`, pc + 2; its faults in order, with nothing emitted. -/
def Obligations.PrnEmitsTheRegister : Prop :=
  ∀ (rA : Byte) (s : State),
    (∀ a : RegIdx, rA.toNat = a.val → s.InBounds 2 →
      exec (.prn rA) s = .next { s with out := s.out ++ [s.regs[a]], pc := s.pc + 2 }) ∧
    FaultsOfR (.prn rA) 0x47 rA s

/-- R142 MUL: the low 8 bits of the product, no flag; its faults in order. -/
def Obligations.MulWritesTheLowByte : Prop :=
  ∀ (rA rB : Byte) (s : State),
    (∀ a b : RegIdx, rA.toNat = a.val → rB.toNat = b.val → s.InBounds 3 →
      exec (.mul rA rB) s = .next { s with
        regs := s.regs.set a (BitVec.ofNat 8 ((s.regs[a].toNat * s.regs[b].toNat) % 256)), pc := s.pc + 3 }) ∧
    FaultsOfRR (.mul rA rB) 0xA2 rA rB s

/-- R141 ADD: the sum modulo 256, no flag; its faults in order. -/
def Obligations.AddWritesTheWrappedSum : Prop :=
  ∀ (rA rB : Byte) (s : State),
    (∀ a b : RegIdx, rA.toNat = a.val → rB.toNat = b.val → s.InBounds 3 →
      exec (.add rA rB) s = .next { s with
        regs := s.regs.set a (BitVec.ofNat 8 ((s.regs[a].toNat + s.regs[b].toNat) % 256)), pc := s.pc + 3 }) ∧
    FaultsOfRR (.add rA rB) 0xA0 rA rB s

/-- R143 CMP: the whole of `FL` by the unsigned comparison, nothing else but pc; its faults in order. -/
def Obligations.CmpOverwritesTheFlags : Prop :=
  ∀ (rA rB : Byte) (s : State),
    (∀ a b : RegIdx, rA.toNat = a.val → rB.toNat = b.val → s.InBounds 3 →
      exec (.cmp rA rB) s = .next { s with
        fl := if s.regs[a].toNat = s.regs[b].toNat then 0x01
              else if s.regs[a].toNat > s.regs[b].toNat then 0x02 else 0x04,
        pc := s.pc + 3 }) ∧
    FaultsOfRR (.cmp rA rB) 0xA7 rA rB s

/-- R170 PUSH: `SP` is decremented modulo 256 and the cell it then names holds `x[rA]` as it stands after the
decrement (so `PUSH R7` stores the decremented `SP`); nothing else but pc; its faults in order. The memory is in its
canonical form, which every run keeps. -/
def Obligations.PushStoresBelowTheStack : Prop :=
  ∀ (rA : Byte) (s : State),
    (∀ a : RegIdx, rA.toNat = a.val → s.InBounds 2 → Memory.wf s.mem = true →
      ∃ t, exec (.push rA) s = .next t ∧ t = { s with regs := s.regs.set 7 (s.reg 7 - 1), mem := t.mem, pc := s.pc + 2 } ∧
        ∀ x : Byte, t.memRead x =
          if x = s.reg 7 - 1 then (if a = 7 then s.reg 7 - 1 else s.reg a) else s.memRead x) ∧
    FaultsOfR (.push rA) 0x45 rA s

/-- R171 POP: `x[rA]` takes the byte at `SP`, then `SP` is incremented modulo 256 (so `POP R7` ends with the popped
byte plus 1); memory and flags unchanged; its faults in order. -/
def Obligations.PopLoadsTheTopOfStack : Prop :=
  ∀ (rA : Byte) (s : State),
    (∀ a : RegIdx, rA.toNat = a.val → s.InBounds 2 →
      ∃ t, exec (.pop rA) s = .next t ∧ t = { s with regs := t.regs, pc := s.pc + 2 } ∧
        (a ≠ 7 → t.reg a = s.memRead (s.reg 7) ∧ t.reg 7 = s.reg 7 + 1) ∧
        (a = 7 → t.reg 7 = s.memRead (s.reg 7) + 1) ∧
        ∀ r : RegIdx, r ≠ a → r ≠ 7 → t.reg r = s.reg r) ∧
    FaultsOfR (.pop rA) 0x46 rA s

/-- R180 CALL: `SP` is decremented, the cell it then names holds the address after the CALL, and pc is `x[rA]` as it
stands after the decrement; its faults in order. -/
def Obligations.CallPushesTheReturnAddress : Prop :=
  ∀ (rA : Byte) (s : State),
    (∀ a : RegIdx, rA.toNat = a.val → s.InBounds 2 → Memory.wf s.mem = true →
      ∃ t, exec (.call rA) s = .next t ∧
        t = { s with regs := s.regs.set 7 (s.reg 7 - 1), mem := t.mem,
                     pc := if a = 7 then s.reg 7 - 1 else s.reg a } ∧
        ∀ x : Byte, t.memRead x = if x = s.reg 7 - 1 then s.pc + 2 else s.memRead x) ∧
    FaultsOfR (.call rA) 0x50 rA s

/-- R181 RET: pc takes the byte at `SP` and `SP` is incremented; never a fault, at any address. -/
def Obligations.RetPopsThePc : Prop :=
  ∀ s : State, exec .ret s = .next { s with regs := s.regs.set 7 (s.reg 7 + 1), pc := s.memRead (s.reg 7) }

/-- R182 JMP: pc takes `x[rA]`, with no bound on the successor; its faults in order. -/
def Obligations.JmpGoesToTheRegister : Prop :=
  ∀ (rA : Byte) (s : State),
    (∀ a : RegIdx, rA.toNat = a.val → s.InBounds 1 → exec (.jmp rA) s = .next { s with pc := s.reg a }) ∧
    FirstOperandFaults (.jmp rA) 0x54 rA s

/-- R183 JEQ: taken exactly if `FL[0] = 1`; the register is checked either way, the successor's bound only when it is
not taken. -/
def Obligations.JeqTakenIfEqual : Prop :=
  ∀ (rA : Byte) (s : State),
    (∀ a : RegIdx, rA.toNat = a.val → s.fl.getLsbD 0 = true → s.InBounds 1 →
      exec (.jeq rA) s = .next { s with pc := s.reg a }) ∧
    (∀ a : RegIdx, rA.toNat = a.val → s.fl.getLsbD 0 = false → s.InBounds 2 →
      exec (.jeq rA) s = .next { s with pc := s.pc + 2 }) ∧
    FirstOperandFaults (.jeq rA) 0x55 rA s ∧
    (s.fl.getLsbD 0 = false → SuccessorBound (.jeq rA) 0x55 2 s)

/-- R184 JNE: taken exactly if `FL[0] = 0`; the register is checked either way, the successor's bound only when it is
not taken. -/
def Obligations.JneTakenIfNotEqual : Prop :=
  ∀ (rA : Byte) (s : State),
    (∀ a : RegIdx, rA.toNat = a.val → s.fl.getLsbD 0 = false → s.InBounds 1 →
      exec (.jne rA) s = .next { s with pc := s.reg a }) ∧
    (∀ a : RegIdx, rA.toNat = a.val → s.fl.getLsbD 0 = true → s.InBounds 2 →
      exec (.jne rA) s = .next { s with pc := s.pc + 2 }) ∧
    FirstOperandFaults (.jne rA) 0x56 rA s ∧
    (s.fl.getLsbD 0 = true → SuccessorBound (.jne rA) 0x56 2 s)

/-- R172: (a) PUSH then POP of one register other than R7 restores all registers and leaves the pushed value in its
cell; (b) two pushes and two pops of registers other than R7 come out last in, first out; (c) the pair on R7 restores
`SP`, and a POP R7 of any byte `v` leaves `SP = v + 1`. -/
def Obligations.StackLaws : Prop :=
  (∀ (s : State) (rA : Byte) (a : RegIdx), rA.toNat = a.val → a ≠ 7 → s.InBounds 4 → Memory.wf s.mem = true →
    ∃ t u, exec (.push rA) s = .next t ∧ exec (.pop rA) t = .next u ∧ u.regs = s.regs ∧
      u.memRead (s.reg 7 - 1) = s.reg a) ∧
  (∀ (s : State) (rA rB rC rD : Byte) (a b c d : RegIdx),
    rA.toNat = a.val → rB.toNat = b.val → rC.toNat = c.val → rD.toNat = d.val →
    a ≠ 7 → b ≠ 7 → c ≠ 7 → d ≠ 7 → c ≠ d → s.InBounds 8 → Memory.wf s.mem = true →
    ∃ t u v w, exec (.push rA) s = .next t ∧ exec (.push rB) t = .next u ∧ exec (.pop rC) u = .next v ∧
      exec (.pop rD) v = .next w ∧ w.reg c = s.reg b ∧ w.reg d = s.reg a ∧ w.reg 7 = s.reg 7) ∧
  (∀ s : State, s.InBounds 4 → Memory.wf s.mem = true →
    ∃ t u, exec (.push 7) s = .next t ∧ t.memRead (s.reg 7 - 1) = s.reg 7 - 1 ∧ exec (.pop 7) t = .next u ∧
      u.reg 7 = s.reg 7) ∧
  (∀ s : State, s.InBounds 2 → ∃ t, exec (.pop 7) s = .next t ∧ t.reg 7 = s.memRead (s.reg 7) + 1)

/-- R186: CALL pushes one byte, the address after the CALL, and a RET in any state that keeps `SP` and the byte at `SP` as the CALL left them
resumes at the address after the CALL, with `SP` as before the pair. -/
def Obligations.RetAfterCallResumes : Prop :=
  ∀ (s u : State) (rA : Byte) (a : RegIdx), rA.toNat = a.val → s.InBounds 2 → Memory.wf s.mem = true →
    ∃ t, exec (.call rA) s = .next t ∧ t.reg 7 = s.reg 7 - 1 ∧ t.memRead (t.reg 7) = s.pc + 2 ∧
      (u.reg 7 = t.reg 7 → u.memRead (u.reg 7) = t.memRead (t.reg 7) →
        ∃ w, exec .ret u = .next w ∧ w.pc = s.pc + 2 ∧ w.reg 7 = s.reg 7)

/-! ## Frames: what an instruction leaves unchanged when it gives a next state, a fault entry included -/

/-- ADD, MUL and LDI change at most their destination register, pc, and on a fault the record. -/
def Obligations.RegisterWritesFrame : Prop :=
  ∀ (s t : State) (rA x : Byte) (i : Instr), i = .add rA x ∨ i = .mul rA x ∨ i = .ldi rA x → exec i s = .next t →
    (∀ r : RegIdx, r.val ≠ rA.toNat → t.reg r = s.reg r) ∧ t.fl = s.fl ∧ SameMemory s t ∧ t.out = s.out ∧
    t.trace = s.trace ∧ t.params = s.params ∧ RecordKeptOrFaultEntry s t

/-- CMP changes at most `FL`, pc, and on a fault the record. -/
def Obligations.CompareFrame : Prop :=
  ∀ (s t : State) (rA rB : Byte), exec (.cmp rA rB) s = .next t →
    t.regs = s.regs ∧ SameMemory s t ∧ t.out = s.out ∧ t.trace = s.trace ∧ t.params = s.params ∧
    RecordKeptOrFaultEntry s t

/-- PRN changes at most `OUT`, pc, and on a fault the record; JMP, JEQ and JNE at most pc, and on a fault the record;
`OUT` keeps what it held. -/
def Obligations.PrintAndJumpFrame : Prop :=
  ∀ (s t : State) (rA : Byte) (i : Instr), i = .prn rA ∨ i = .jmp rA ∨ i = .jeq rA ∨ i = .jne rA → exec i s = .next t →
    t.regs = s.regs ∧ t.fl = s.fl ∧ SameMemory s t ∧ s.out <+: t.out ∧ (i ≠ .prn rA → t.out = s.out) ∧
    t.trace = s.trace ∧ t.params = s.params ∧ RecordKeptOrFaultEntry s t

/-- PUSH and CALL change at most `SP`, the one byte at the address a push stores to, pc, and on a fault the record. -/
def Obligations.PushAndCallFrame : Prop :=
  ∀ (s t : State) (rA : Byte) (i : Instr), i = .push rA ∨ i = .call rA → exec i s = .next t →
    (∀ r : RegIdx, r ≠ 7 → t.reg r = s.reg r) ∧ t.fl = s.fl ∧
    (∀ a : Byte, a ≠ s.pushAddr → t.memRead a = s.memRead a) ∧ t.out = s.out ∧ t.trace = s.trace ∧
    t.params = s.params ∧ RecordKeptOrFaultEntry s t

/-- POP changes at most its destination register, `SP`, pc, and on a fault the record; RET changes only `SP` and pc. -/
def Obligations.PopAndRetFrame : Prop :=
  (∀ (s t : State) (rA : Byte), exec (.pop rA) s = .next t →
    (∀ r : RegIdx, r ≠ 7 → r.val ≠ rA.toNat → t.reg r = s.reg r) ∧ t.fl = s.fl ∧ SameMemory s t ∧ t.out = s.out ∧
    t.trace = s.trace ∧ t.params = s.params ∧ RecordKeptOrFaultEntry s t) ∧
  (∀ s t : State, exec .ret s = .next t →
    (∀ r : RegIdx, r ≠ 7 → t.reg r = s.reg r) ∧ t.fl = s.fl ∧ SameMemory s t ∧ t.out = s.out ∧
    t.trace = s.trace ∧ t.params = s.params ∧ t.status = s.status ∧ t.fcause = s.fcause ∧ t.fpc = s.fpc ∧
    t.fop = s.fop ∧ t.finfo = s.finfo)

/-- HLT changes only `STATUS`. -/
def Obligations.HaltFrame : Prop :=
  ∀ s t : State, exec .hlt s = .next t →
    t.regs = s.regs ∧ t.pc = s.pc ∧ t.fl = s.fl ∧ SameMemory s t ∧ t.out = s.out ∧ t.trace = s.trace ∧
    t.params = s.params ∧ t.fcause = s.fcause ∧ t.fpc = s.fpc ∧ t.fop = s.fop ∧ t.finfo = s.finfo

/-! ## One machine state -/

/-- R41, R213: the machine is the registers, `pc`, `FL`, the 256 bytes of memory, `STATUS`, the fault record, `OUT` and
the trace of one core, and nothing else: no core identifier, mode, interrupt or counter state (R34, R209, R211, R212).
Two states that agree in them, and in the parameters of notes/assumptions/1.md, are one state. That memory is compared
byte by byte rests on its canonical form (notes/assumptions/6.md). -/
def Obligations.StateIsTheListedFieldsAlone : Prop :=
  ∀ s t : State, Memory.wf s.mem = true → Memory.wf t.mem = true → (∀ r : RegIdx, s.reg r = t.reg r) → s.pc = t.pc →
    s.fl = t.fl → (∀ a : Byte, s.memRead a = t.memRead a) → s.status = t.status → s.fcause = t.fcause →
    s.fpc = t.fpc → s.fop = t.fop → s.finfo = t.finfo → s.out = t.out → s.trace = t.trace → s.params = t.params → s = t

/-- R213, R233, R234: a run is one sequence of states of one machine. It can be followed in pieces; while the core runs,
each state is the step of the one before, with nothing done to it in between; once it has stopped, the state stays
as it is. -/
def Obligations.RunIsOneSequenceOfSteps : Prop :=
  ∀ (s : State) (m n : Nat),
    run (m + n) s = run n (run m s) ∧
    ((run m s).status = .run → step (run m s) = .next (run (m + 1) s)) ∧
    ((run m s).status ≠ .run → run (m + n) s = run m s)
end

