-- ==== Sys2Proof/Laws/State.lean ====
section
/-! SUPPORT. What each update of the state leaves in each field: one lemma a field and update. -/

namespace Sys2Proof.Machine

/-! ### setReg -/

@[simp] theorem State.setReg_regs (s : State) (i : RegIdx) (v : Byte) : (s.setReg i v).regs = s.regs.set i v := rfl
@[simp] theorem State.setReg_pc (s : State) (i : RegIdx) (v : Byte) : (s.setReg i v).pc = s.pc := rfl
@[simp] theorem State.setReg_fl (s : State) (i : RegIdx) (v : Byte) : (s.setReg i v).fl = s.fl := rfl
@[simp] theorem State.setReg_mem (s : State) (i : RegIdx) (v : Byte) : (s.setReg i v).mem = s.mem := rfl
@[simp] theorem State.setReg_status (s : State) (i : RegIdx) (v : Byte) : (s.setReg i v).status = s.status := rfl
@[simp] theorem State.setReg_fcause (s : State) (i : RegIdx) (v : Byte) : (s.setReg i v).fcause = s.fcause := rfl
@[simp] theorem State.setReg_fpc (s : State) (i : RegIdx) (v : Byte) : (s.setReg i v).fpc = s.fpc := rfl
@[simp] theorem State.setReg_fop (s : State) (i : RegIdx) (v : Byte) : (s.setReg i v).fop = s.fop := rfl
@[simp] theorem State.setReg_finfo (s : State) (i : RegIdx) (v : Byte) : (s.setReg i v).finfo = s.finfo := rfl
@[simp] theorem State.setReg_out (s : State) (i : RegIdx) (v : Byte) : (s.setReg i v).out = s.out := rfl
@[simp] theorem State.setReg_trace (s : State) (i : RegIdx) (v : Byte) : (s.setReg i v).trace = s.trace := rfl
@[simp] theorem State.setReg_params (s : State) (i : RegIdx) (v : Byte) : (s.setReg i v).params = s.params := rfl

/-! ### setSp -/

@[simp] theorem State.setSp_regs (s : State) (v : Byte) : (s.setSp v).regs = s.regs.set spIndex v := rfl
@[simp] theorem State.setSp_pc (s : State) (v : Byte) : (s.setSp v).pc = s.pc := rfl
@[simp] theorem State.setSp_fl (s : State) (v : Byte) : (s.setSp v).fl = s.fl := rfl
@[simp] theorem State.setSp_mem (s : State) (v : Byte) : (s.setSp v).mem = s.mem := rfl
@[simp] theorem State.setSp_status (s : State) (v : Byte) : (s.setSp v).status = s.status := rfl
@[simp] theorem State.setSp_fcause (s : State) (v : Byte) : (s.setSp v).fcause = s.fcause := rfl
@[simp] theorem State.setSp_fpc (s : State) (v : Byte) : (s.setSp v).fpc = s.fpc := rfl
@[simp] theorem State.setSp_fop (s : State) (v : Byte) : (s.setSp v).fop = s.fop := rfl
@[simp] theorem State.setSp_finfo (s : State) (v : Byte) : (s.setSp v).finfo = s.finfo := rfl
@[simp] theorem State.setSp_out (s : State) (v : Byte) : (s.setSp v).out = s.out := rfl
@[simp] theorem State.setSp_trace (s : State) (v : Byte) : (s.setSp v).trace = s.trace := rfl
@[simp] theorem State.setSp_params (s : State) (v : Byte) : (s.setSp v).params = s.params := rfl

/-! ### setPc -/

@[simp] theorem State.setPc_regs (s : State) (v : Byte) : (s.setPc v).regs = s.regs := rfl
@[simp] theorem State.setPc_pc (s : State) (v : Byte) : (s.setPc v).pc = v := rfl
@[simp] theorem State.setPc_fl (s : State) (v : Byte) : (s.setPc v).fl = s.fl := rfl
@[simp] theorem State.setPc_mem (s : State) (v : Byte) : (s.setPc v).mem = s.mem := rfl
@[simp] theorem State.setPc_status (s : State) (v : Byte) : (s.setPc v).status = s.status := rfl
@[simp] theorem State.setPc_fcause (s : State) (v : Byte) : (s.setPc v).fcause = s.fcause := rfl
@[simp] theorem State.setPc_fpc (s : State) (v : Byte) : (s.setPc v).fpc = s.fpc := rfl
@[simp] theorem State.setPc_fop (s : State) (v : Byte) : (s.setPc v).fop = s.fop := rfl
@[simp] theorem State.setPc_finfo (s : State) (v : Byte) : (s.setPc v).finfo = s.finfo := rfl
@[simp] theorem State.setPc_out (s : State) (v : Byte) : (s.setPc v).out = s.out := rfl
@[simp] theorem State.setPc_trace (s : State) (v : Byte) : (s.setPc v).trace = s.trace := rfl
@[simp] theorem State.setPc_params (s : State) (v : Byte) : (s.setPc v).params = s.params := rfl

/-! ### setFl -/

@[simp] theorem State.setFl_regs (s : State) (v : Byte) : (s.setFl v).regs = s.regs := rfl
@[simp] theorem State.setFl_pc (s : State) (v : Byte) : (s.setFl v).pc = s.pc := rfl
@[simp] theorem State.setFl_fl (s : State) (v : Byte) : (s.setFl v).fl = v := rfl
@[simp] theorem State.setFl_mem (s : State) (v : Byte) : (s.setFl v).mem = s.mem := rfl
@[simp] theorem State.setFl_status (s : State) (v : Byte) : (s.setFl v).status = s.status := rfl
@[simp] theorem State.setFl_fcause (s : State) (v : Byte) : (s.setFl v).fcause = s.fcause := rfl
@[simp] theorem State.setFl_fpc (s : State) (v : Byte) : (s.setFl v).fpc = s.fpc := rfl
@[simp] theorem State.setFl_fop (s : State) (v : Byte) : (s.setFl v).fop = s.fop := rfl
@[simp] theorem State.setFl_finfo (s : State) (v : Byte) : (s.setFl v).finfo = s.finfo := rfl
@[simp] theorem State.setFl_out (s : State) (v : Byte) : (s.setFl v).out = s.out := rfl
@[simp] theorem State.setFl_trace (s : State) (v : Byte) : (s.setFl v).trace = s.trace := rfl
@[simp] theorem State.setFl_params (s : State) (v : Byte) : (s.setFl v).params = s.params := rfl

/-! ### memWrite -/

@[simp] theorem State.memWrite_regs (s : State) (a v : Byte) : (s.memWrite a v).regs = s.regs := rfl
@[simp] theorem State.memWrite_pc (s : State) (a v : Byte) : (s.memWrite a v).pc = s.pc := rfl
@[simp] theorem State.memWrite_fl (s : State) (a v : Byte) : (s.memWrite a v).fl = s.fl := rfl
@[simp] theorem State.memWrite_mem (s : State) (a v : Byte) : (s.memWrite a v).mem = Memory.write s.mem a.toNat v := rfl
@[simp] theorem State.memWrite_status (s : State) (a v : Byte) : (s.memWrite a v).status = s.status := rfl
@[simp] theorem State.memWrite_fcause (s : State) (a v : Byte) : (s.memWrite a v).fcause = s.fcause := rfl
@[simp] theorem State.memWrite_fpc (s : State) (a v : Byte) : (s.memWrite a v).fpc = s.fpc := rfl
@[simp] theorem State.memWrite_fop (s : State) (a v : Byte) : (s.memWrite a v).fop = s.fop := rfl
@[simp] theorem State.memWrite_finfo (s : State) (a v : Byte) : (s.memWrite a v).finfo = s.finfo := rfl
@[simp] theorem State.memWrite_out (s : State) (a v : Byte) : (s.memWrite a v).out = s.out := rfl
@[simp] theorem State.memWrite_trace (s : State) (a v : Byte) : (s.memWrite a v).trace = s.trace := rfl
@[simp] theorem State.memWrite_params (s : State) (a v : Byte) : (s.memWrite a v).params = s.params := rfl

/-! ### emit -/

@[simp] theorem State.emit_regs (s : State) (v : Byte) : (s.emit v).regs = s.regs := rfl
@[simp] theorem State.emit_pc (s : State) (v : Byte) : (s.emit v).pc = s.pc := rfl
@[simp] theorem State.emit_fl (s : State) (v : Byte) : (s.emit v).fl = s.fl := rfl
@[simp] theorem State.emit_mem (s : State) (v : Byte) : (s.emit v).mem = s.mem := rfl
@[simp] theorem State.emit_status (s : State) (v : Byte) : (s.emit v).status = s.status := rfl
@[simp] theorem State.emit_fcause (s : State) (v : Byte) : (s.emit v).fcause = s.fcause := rfl
@[simp] theorem State.emit_fpc (s : State) (v : Byte) : (s.emit v).fpc = s.fpc := rfl
@[simp] theorem State.emit_fop (s : State) (v : Byte) : (s.emit v).fop = s.fop := rfl
@[simp] theorem State.emit_finfo (s : State) (v : Byte) : (s.emit v).finfo = s.finfo := rfl
@[simp] theorem State.emit_out (s : State) (v : Byte) : (s.emit v).out = s.out ++ [v] := rfl
@[simp] theorem State.emit_trace (s : State) (v : Byte) : (s.emit v).trace = s.trace := rfl
@[simp] theorem State.emit_params (s : State) (v : Byte) : (s.emit v).params = s.params := rfl

/-! ### halt -/

@[simp] theorem State.halt_regs (s : State) : (s.halt).regs = s.regs := rfl
@[simp] theorem State.halt_pc (s : State) : (s.halt).pc = s.pc := rfl
@[simp] theorem State.halt_fl (s : State) : (s.halt).fl = s.fl := rfl
@[simp] theorem State.halt_mem (s : State) : (s.halt).mem = s.mem := rfl
@[simp] theorem State.halt_status (s : State) : (s.halt).status = .halt := rfl
@[simp] theorem State.halt_fcause (s : State) : (s.halt).fcause = s.fcause := rfl
@[simp] theorem State.halt_fpc (s : State) : (s.halt).fpc = s.fpc := rfl
@[simp] theorem State.halt_fop (s : State) : (s.halt).fop = s.fop := rfl
@[simp] theorem State.halt_finfo (s : State) : (s.halt).finfo = s.finfo := rfl
@[simp] theorem State.halt_out (s : State) : (s.halt).out = s.out := rfl
@[simp] theorem State.halt_trace (s : State) : (s.halt).trace = s.trace := rfl
@[simp] theorem State.halt_params (s : State) : (s.halt).params = s.params := rfl

/-! ### raise -/

@[simp] theorem State.raise_regs (s : State) (op : Byte) (e : Trap) : (s.raise op e).regs = s.regs := rfl
@[simp] theorem State.raise_pc (s : State) (op : Byte) (e : Trap) : (s.raise op e).pc = s.pc := rfl
@[simp] theorem State.raise_fl (s : State) (op : Byte) (e : Trap) : (s.raise op e).fl = s.fl := rfl
@[simp] theorem State.raise_mem (s : State) (op : Byte) (e : Trap) : (s.raise op e).mem = s.mem := rfl
@[simp] theorem State.raise_status (s : State) (op : Byte) (e : Trap) : (s.raise op e).status = .fault := rfl
@[simp] theorem State.raise_fcause (s : State) (op : Byte) (e : Trap) : (s.raise op e).fcause = trapCode e := rfl
@[simp] theorem State.raise_fpc (s : State) (op : Byte) (e : Trap) : (s.raise op e).fpc = s.pc := rfl
@[simp] theorem State.raise_fop (s : State) (op : Byte) (e : Trap) : (s.raise op e).fop = op := rfl
@[simp] theorem State.raise_finfo (s : State) (op : Byte) (e : Trap) : (s.raise op e).finfo = trapInfo e := rfl
@[simp] theorem State.raise_out (s : State) (op : Byte) (e : Trap) : (s.raise op e).out = s.out := rfl
@[simp] theorem State.raise_trace (s : State) (op : Byte) (e : Trap) : (s.raise op e).trace = s.trace := rfl
@[simp] theorem State.raise_params (s : State) (op : Byte) (e : Trap) : (s.raise op e).params = s.params := rfl

/-! ### decSp -/

@[simp] theorem State.decSp_regs (s : State) : (s.decSp).regs = s.regs.set spIndex s.pushAddr := rfl
@[simp] theorem State.decSp_pc (s : State) : (s.decSp).pc = s.pc := rfl
@[simp] theorem State.decSp_fl (s : State) : (s.decSp).fl = s.fl := rfl
@[simp] theorem State.decSp_mem (s : State) : (s.decSp).mem = s.mem := rfl
@[simp] theorem State.decSp_status (s : State) : (s.decSp).status = s.status := rfl
@[simp] theorem State.decSp_fcause (s : State) : (s.decSp).fcause = s.fcause := rfl
@[simp] theorem State.decSp_fpc (s : State) : (s.decSp).fpc = s.fpc := rfl
@[simp] theorem State.decSp_fop (s : State) : (s.decSp).fop = s.fop := rfl
@[simp] theorem State.decSp_finfo (s : State) : (s.decSp).finfo = s.finfo := rfl
@[simp] theorem State.decSp_out (s : State) : (s.decSp).out = s.out := rfl
@[simp] theorem State.decSp_trace (s : State) : (s.decSp).trace = s.trace := rfl
@[simp] theorem State.decSp_params (s : State) : (s.decSp).params = s.params := rfl

/-! ### incSp -/

@[simp] theorem State.incSp_regs (s : State) : (s.incSp).regs = s.regs.set spIndex (u8 (s.sp.toNat + 1)) := rfl
@[simp] theorem State.incSp_pc (s : State) : (s.incSp).pc = s.pc := rfl
@[simp] theorem State.incSp_fl (s : State) : (s.incSp).fl = s.fl := rfl
@[simp] theorem State.incSp_mem (s : State) : (s.incSp).mem = s.mem := rfl
@[simp] theorem State.incSp_status (s : State) : (s.incSp).status = s.status := rfl
@[simp] theorem State.incSp_fcause (s : State) : (s.incSp).fcause = s.fcause := rfl
@[simp] theorem State.incSp_fpc (s : State) : (s.incSp).fpc = s.fpc := rfl
@[simp] theorem State.incSp_fop (s : State) : (s.incSp).fop = s.fop := rfl
@[simp] theorem State.incSp_finfo (s : State) : (s.incSp).finfo = s.finfo := rfl
@[simp] theorem State.incSp_out (s : State) : (s.incSp).out = s.out := rfl
@[simp] theorem State.incSp_trace (s : State) : (s.incSp).trace = s.trace := rfl
@[simp] theorem State.incSp_params (s : State) : (s.incSp).params = s.params := rfl

/-! ### recordTrace -/

@[simp] theorem State.recordTrace_regs (s : State) : s.recordTrace.regs = s.regs := by
  unfold State.recordTrace; split <;> rfl
@[simp] theorem State.recordTrace_pc (s : State) : s.recordTrace.pc = s.pc := by
  unfold State.recordTrace; split <;> rfl
@[simp] theorem State.recordTrace_fl (s : State) : s.recordTrace.fl = s.fl := by
  unfold State.recordTrace; split <;> rfl
@[simp] theorem State.recordTrace_mem (s : State) : s.recordTrace.mem = s.mem := by
  unfold State.recordTrace; split <;> rfl
@[simp] theorem State.recordTrace_status (s : State) : s.recordTrace.status = s.status := by
  unfold State.recordTrace; split <;> rfl
@[simp] theorem State.recordTrace_fcause (s : State) : s.recordTrace.fcause = s.fcause := by
  unfold State.recordTrace; split <;> rfl
@[simp] theorem State.recordTrace_fpc (s : State) : s.recordTrace.fpc = s.fpc := by
  unfold State.recordTrace; split <;> rfl
@[simp] theorem State.recordTrace_fop (s : State) : s.recordTrace.fop = s.fop := by
  unfold State.recordTrace; split <;> rfl
@[simp] theorem State.recordTrace_finfo (s : State) : s.recordTrace.finfo = s.finfo := by
  unfold State.recordTrace; split <;> rfl
@[simp] theorem State.recordTrace_out (s : State) : s.recordTrace.out = s.out := by
  unfold State.recordTrace; split <;> rfl
@[simp] theorem State.recordTrace_trace (s : State) :
    s.recordTrace.trace = if s.params.traceEnable then s.trace ++ [s.traceEntry] else s.trace := by
  unfold State.recordTrace; split <;> rfl
@[simp] theorem State.recordTrace_params (s : State) : s.recordTrace.params = s.params := by
  unfold State.recordTrace; split <;> rfl

/-! ### Accessors see one field each -/

@[simp] theorem State.setPc_reg (s : State) (v : Byte) (i : RegIdx) : (s.setPc v).reg i = s.reg i := rfl
@[simp] theorem State.setFl_reg (s : State) (v : Byte) (i : RegIdx) : (s.setFl v).reg i = s.reg i := rfl
@[simp] theorem State.memWrite_reg (s : State) (b v : Byte) (i : RegIdx) : (s.memWrite b v).reg i = s.reg i := rfl
@[simp] theorem State.emit_reg (s : State) (v : Byte) (i : RegIdx) : (s.emit v).reg i = s.reg i := rfl
@[simp] theorem State.halt_reg (s : State) (i : RegIdx) : (s.halt).reg i = s.reg i := rfl
@[simp] theorem State.raise_reg (s : State) (op : Byte) (e : Trap) (i : RegIdx) : (s.raise op e).reg i = s.reg i := rfl
@[simp] theorem State.recordTrace_reg (s : State) (i : RegIdx) : (s.recordTrace).reg i = s.reg i := by
  simp [State.reg]
@[simp] theorem State.setReg_memRead (s : State) (i : RegIdx) (v : Byte) (a : Byte) : (s.setReg i v).memRead a = s.memRead a := rfl
@[simp] theorem State.setSp_memRead (s : State) (v : Byte) (a : Byte) : (s.setSp v).memRead a = s.memRead a := rfl
@[simp] theorem State.setPc_memRead (s : State) (v : Byte) (a : Byte) : (s.setPc v).memRead a = s.memRead a := rfl
@[simp] theorem State.setFl_memRead (s : State) (v : Byte) (a : Byte) : (s.setFl v).memRead a = s.memRead a := rfl
@[simp] theorem State.emit_memRead (s : State) (v : Byte) (a : Byte) : (s.emit v).memRead a = s.memRead a := rfl
@[simp] theorem State.halt_memRead (s : State) (a : Byte) : (s.halt).memRead a = s.memRead a := rfl
@[simp] theorem State.raise_memRead (s : State) (op : Byte) (e : Trap) (a : Byte) : (s.raise op e).memRead a = s.memRead a := rfl
@[simp] theorem State.decSp_memRead (s : State) (a : Byte) : (s.decSp).memRead a = s.memRead a := rfl
@[simp] theorem State.incSp_memRead (s : State) (a : Byte) : (s.incSp).memRead a = s.memRead a := rfl
@[simp] theorem State.recordTrace_memRead (s : State) (a : Byte) : (s.recordTrace).memRead a = s.memRead a := by
  simp [State.memRead]
@[simp] theorem State.setPc_sp (s : State) (v : Byte) : (s.setPc v).sp = s.sp := rfl
@[simp] theorem State.setFl_sp (s : State) (v : Byte) : (s.setFl v).sp = s.sp := rfl
@[simp] theorem State.memWrite_sp (s : State) (b v : Byte) : (s.memWrite b v).sp = s.sp := rfl
@[simp] theorem State.emit_sp (s : State) (v : Byte) : (s.emit v).sp = s.sp := rfl
@[simp] theorem State.halt_sp (s : State) : (s.halt).sp = s.sp := rfl
@[simp] theorem State.raise_sp (s : State) (op : Byte) (e : Trap) : (s.raise op e).sp = s.sp := rfl
@[simp] theorem State.recordTrace_sp (s : State) : (s.recordTrace).sp = s.sp := by
  simp [State.sp]

/-! ### Registers -/

/-- Read after write of a general register: the written register holds the value, every other one is unchanged. -/
@[simp] theorem State.reg_setReg (s : State) (i j : RegIdx) (v : Byte) :
    (s.setReg i v).reg j = if i = j then v else s.reg j := by
  simp [State.reg, Vector.getElem_set, Fin.ext_iff]

@[simp] theorem State.reg_setSp (s : State) (j : RegIdx) (v : Byte) :
    (s.setSp v).reg j = if spIndex = j then v else s.reg j := State.reg_setReg s spIndex j v

@[simp] theorem State.sp_setSp (s : State) (v : Byte) : (s.setSp v).sp = v := by
  simp [State.sp]

theorem State.sp_setReg (s : State) (i : RegIdx) (v : Byte) :
    (s.setReg i v).sp = if i = spIndex then v else s.sp := State.reg_setReg s i spIndex v

end Sys2Proof.Machine
end

