-- ==== Sys2Proof/Laws/Ops.lean ====
section
/-! SUPPORT. What each shared operation can do, said once: `complete`, `bounded`, `opnd`, `seqpc`, `regOperand`, the
operand forms, the memory accessors and the ALU. -/

namespace Sys2Proof.Machine

/-! ### Reduction modulo 256 and the ALU -/

theorem toNat_u8 (n : Nat) : (u8 n).toNat = n % 256 := by
  simp [u8]

theorem u8_natCast (n : Nat) : u8 n = BitVec.ofNat 8 n := by
  apply BitVec.eq_of_toNat_eq; simp [toNat_u8]

/-- Adding a constant to a byte and reducing is the byte's own addition. -/
theorem u8_add (p : Byte) (n : Nat) : u8 ((p.toNat + n : Nat) : Int) = p + BitVec.ofNat 8 n := by
  rw [u8_natCast]
  apply BitVec.eq_of_toNat_eq
  simp [BitVec.toNat_add]

theorem alu_add (a b : Byte) : alu .add a b = a + b := by
  apply BitVec.eq_of_toNat_eq
  simp only [alu, BitVec.toNat_add]
  exact toNat_u8 (a.toNat + b.toNat)

theorem alu_mul (a b : Byte) : alu .mul a b = a * b := by
  apply BitVec.eq_of_toNat_eq
  simp only [alu, BitVec.toNat_mul]
  exact toNat_u8 (a.toNat * b.toNat)

theorem pushAddr_eq (s : State) : s.pushAddr = s.sp - 1 := by
  apply BitVec.eq_of_toNat_eq
  simp [State.pushAddr, u8, BitVec.toNat_sub]
  omega

theorem incSp_eq (s : State) : s.incSp = s.setSp (s.sp + 1) := by
  have h : ((s.sp.toNat : Int) + 1) = ((s.sp.toNat + 1 : Nat) : Int) := rfl
  simp only [State.incSp, h, u8_add]
  rfl

theorem decSp_eq (s : State) : s.decSp = s.setSp (s.sp - 1) := by
  simp only [State.decSp, pushAddr_eq]

theorem cmpFlags_cases (a b : Byte) :
    (a = b ∧ cmpFlags a b = 0x01) ∨ (b.toNat < a.toNat ∧ cmpFlags a b = 0x02) ∨
      (a.toNat < b.toNat ∧ cmpFlags a b = 0x04) := by
  unfold cmpFlags
  split
  · exact .inl ⟨BitVec.eq_of_toNat_eq ‹_›, rfl⟩
  · split
    · exact .inr (.inl ⟨‹_›, rfl⟩)
    · exact .inr (.inr ⟨by omega, rfl⟩)

/-! ### Memory through the state -/

theorem State.memRead_memWrite_other (s : State) (a v : Byte) {b : Byte} (h : b ≠ a) :
    (s.memWrite a v).memRead b = s.memRead b :=
  Memory.read_write_other _ _ _ fun e => h (BitVec.eq_of_toNat_eq e)

theorem State.memRead_memWrite_same (s : State) (h : Memory.wf s.mem = true) (a v : Byte) :
    (s.memWrite a v).memRead a = v := Memory.read_write_same h _ _

theorem State.wf_memWrite (s : State) (h : Memory.wf s.mem = true) (a v : Byte) :
    Memory.wf (s.memWrite a v).mem = true := Memory.wf_write h a.isLt v

/-! ### The end of the checks -/

/-- What an instruction can end in: the state its writes leave, or the entry of one fault. It never stops. -/
theorem complete_next {op : Byte} {s t : State} {r : Except Trap State} (h : complete op s r = .next t) :
    r = .ok t ∨ ∃ e, r = .error e ∧ t = s.raise op e := by
  cases r with
  | ok u => simp only [complete, Host.Outcome.next.injEq] at h; exact .inl (by rw [h])
  | error e => simp only [complete, Host.Outcome.next.injEq] at h; exact .inr ⟨e, rfl, h.symm⟩

theorem complete_answers (op : Byte) (s : State) (r : Except Trap State) : ∃ t, complete op s r = .next t := by
  cases r <;> exact ⟨_, rfl⟩

@[simp] theorem complete_ok (op : Byte) (s t : State) : complete op s (.ok t) = .next t := rfl

@[simp] theorem complete_error (op : Byte) (s : State) (e : Trap) : complete op s (.error e) = .next (s.raise op e) := rfl

/-! ### Bounds -/

/-- The bound check of an address, whole: it passes within bounds or in `wrap`, and else raises BoundsFault. -/
theorem State.bounded_cases (s : State) (a : Nat) :
    ((a ≤ 255 ∨ s.params.boundsMode = .wrap) ∧ s.bounded a = .ok (u8 a)) ∨
      (255 < a ∧ s.params.boundsMode = .fault ∧ s.bounded a = .error (.boundsFault a)) := by
  unfold State.bounded
  split
  · cases hm : s.params.boundsMode <;> simp_all
  · exact .inl ⟨.inl (by omega), rfl⟩

theorem State.bounded_ok {s : State} {a : Nat} (h : a ≤ 255 ∨ s.params.boundsMode = .wrap) :
    s.bounded a = .ok (u8 a) := by
  obtain ⟨-, e⟩ | ⟨h1, h2, -⟩ := s.bounded_cases a
  · exact e
  · rcases h with h | h
    · omega
    · simp [h] at h2

theorem State.bounded_error {s : State} {a : Nat} (h : 255 < a) (hm : s.params.boundsMode = .fault) :
    s.bounded a = .error (.boundsFault a) := by
  obtain ⟨h1 | h1, -⟩ | ⟨-, -, e⟩ := s.bounded_cases a
  · omega
  · simp [hm] at h1
  · exact e

/-- The operand byte `k`, whole: the fetched byte, or BoundsFault. -/
theorem State.opnd_cases (s : State) (k : Nat) (b : Byte) :
    ((s.pc.toNat + k ≤ 255 ∨ s.params.boundsMode = .wrap) ∧ s.opnd k b = .ok b) ∨
      (255 < s.pc.toNat + k ∧ s.params.boundsMode = .fault ∧ s.opnd k b = .error (.boundsFault (s.pc.toNat + k))) := by
  unfold State.opnd
  obtain ⟨h, e⟩ | ⟨h, hm, e⟩ := s.bounded_cases (s.pc.toNat + k)
  · exact .inl ⟨h, by rw [e]⟩
  · exact .inr ⟨h, hm, by rw [e]⟩

theorem State.opnd_ok {s : State} {k : Nat} (b : Byte) (h : s.pc.toNat + k ≤ 255 ∨ s.params.boundsMode = .wrap) :
    s.opnd k b = .ok b := by
  simp [State.opnd, State.bounded_ok h]

theorem State.opnd_error {s : State} {k : Nat} (b : Byte) (h : 255 < s.pc.toNat + k)
    (hm : s.params.boundsMode = .fault) : s.opnd k b = .error (.boundsFault (s.pc.toNat + k)) := by
  simp [State.opnd, State.bounded_error h hm]

theorem State.seqpc_ok {s : State} {w : Nat} (h : s.pc.toNat + w ≤ 255 ∨ s.params.boundsMode = .wrap) :
    s.seqpc w = .ok (s.pc + BitVec.ofNat 8 w) := by
  simp only [State.seqpc, State.bounded_ok h, u8_add]

/-- The sequential next pc, whole: `pc + w` modulo 256, or BoundsFault. -/
theorem State.seqpc_cases (s : State) (w : Nat) :
    ((s.pc.toNat + w ≤ 255 ∨ s.params.boundsMode = .wrap) ∧ s.seqpc w = .ok (s.pc + BitVec.ofNat 8 w)) ∨
      (255 < s.pc.toNat + w ∧ s.params.boundsMode = .fault ∧ s.seqpc w = .error (.boundsFault (s.pc.toNat + w))) := by
  obtain ⟨h, -⟩ | h := s.bounded_cases (s.pc.toNat + w)
  · exact .inl ⟨h, State.seqpc_ok h⟩
  · exact .inr h

/-! ### Register operands -/

/-- A register operand, whole: the register it names, or IllegalRegister. -/
theorem regOperand_cases (b : Byte) :
    (∃ i : RegIdx, i.val = b.toNat ∧ regOperand b = .ok i) ∨ (7 < b.toNat ∧ regOperand b = .error (.illegalRegister b)) := by
  unfold regOperand
  split
  · rename_i h; exact .inl ⟨⟨b.toNat, h⟩, rfl, rfl⟩
  · rename_i h; simp only [nreg] at h; exact .inr ⟨by omega, rfl⟩

theorem regOperand_ok {b : Byte} {i : RegIdx} (h : b.toNat = i.val) : regOperand b = .ok i := by
  obtain ⟨j, hj, e⟩ | ⟨h7, -⟩ := regOperand_cases b
  · rw [e, Fin.ext (hj.trans h)]
  · have := i.isLt; simp only [nreg] at this; omega

theorem regOperand_error {b : Byte} (h : 7 < b.toNat) : regOperand b = .error (.illegalRegister b) := by
  obtain ⟨j, hj, -⟩ | ⟨-, e⟩ := regOperand_cases b
  · have := j.isLt; simp only [nreg] at this; omega
  · exact e

/-! ### Operand forms -/

theorem State.operandR_ok {s : State} {b : Byte} {i : RegIdx} (hb : b.toNat = i.val)
    (h : s.pc.toNat + 1 ≤ 255 ∨ s.params.boundsMode = .wrap) : s.operandR b = .ok i := by
  simp [State.operandR, State.opnd_ok b h, regOperand_ok hb, bind, Except.bind]

/-- What the operand of format `R` can be: a register, or one of its two faults in order (R117). -/
theorem State.operandR_cases (s : State) (b : Byte) :
    (∃ i : RegIdx, i.val = b.toNat ∧ (s.pc.toNat + 1 ≤ 255 ∨ s.params.boundsMode = .wrap) ∧ s.operandR b = .ok i) ∨
      (255 < s.pc.toNat + 1 ∧ s.params.boundsMode = .fault ∧ s.operandR b = .error (.boundsFault (s.pc.toNat + 1))) ∨
      ((s.pc.toNat + 1 ≤ 255 ∨ s.params.boundsMode = .wrap) ∧ 7 < b.toNat ∧
        s.operandR b = .error (.illegalRegister b)) := by
  obtain ⟨h, e⟩ | ⟨h, hm, e⟩ := s.opnd_cases 1 b
  · obtain ⟨i, hi, er⟩ | ⟨h7, er⟩ := regOperand_cases b
    · exact .inl ⟨i, hi, h, by simp [State.operandR, e, er, bind, Except.bind]⟩
    · exact .inr (.inr ⟨h, h7, by simp [State.operandR, e, er, bind, Except.bind]⟩)
  · exact .inr (.inl ⟨h, hm, by simp [State.operandR, e, bind, Except.bind]⟩)

/-- What the operands of format `RR` can be: two registers, a fault of the first, or one of the second's two faults. -/
theorem State.operandsRR_cases (s : State) (b1 b2 : Byte) :
    (∃ i j : RegIdx, s.operandR b1 = .ok i ∧ j.val = b2.toNat ∧
        (s.pc.toNat + 2 ≤ 255 ∨ s.params.boundsMode = .wrap) ∧ s.operandsRR b1 b2 = .ok (i, j)) ∨
      (∃ e, s.operandR b1 = .error e ∧ s.operandsRR b1 b2 = .error e) ∨
      (∃ i, s.operandR b1 = .ok i ∧ 255 < s.pc.toNat + 2 ∧ s.params.boundsMode = .fault ∧
        s.operandsRR b1 b2 = .error (.boundsFault (s.pc.toNat + 2))) ∨
      (∃ i, s.operandR b1 = .ok i ∧ (s.pc.toNat + 2 ≤ 255 ∨ s.params.boundsMode = .wrap) ∧ 7 < b2.toNat ∧
        s.operandsRR b1 b2 = .error (.illegalRegister b2)) := by
  unfold State.operandsRR
  cases h1 : s.operandR b1 with
  | error e => exact .inr (.inl ⟨e, rfl, rfl⟩)
  | ok i =>
    obtain ⟨h, e⟩ | ⟨h, hm, e⟩ := s.opnd_cases 2 b2
    · obtain ⟨j, hj, er⟩ | ⟨h7, er⟩ := regOperand_cases b2
      · exact .inl ⟨i, j, rfl, hj, h, by simp [e, er, bind, Except.bind, pure, Except.pure]⟩
      · exact .inr (.inr (.inr ⟨i, rfl, h, h7, by simp [e, er, bind, Except.bind]⟩))
    · exact .inr (.inr (.inl ⟨i, rfl, h, hm, by simp [e, bind, Except.bind]⟩))

/-- What the operands of format `RI` can be: a register and the immediate, a fault of the first, or BoundsFault. -/
theorem State.operandsRI_cases (s : State) (b1 b2 : Byte) :
    (∃ i : RegIdx, s.operandR b1 = .ok i ∧ (s.pc.toNat + 2 ≤ 255 ∨ s.params.boundsMode = .wrap) ∧
        s.operandsRI b1 b2 = .ok (i, b2)) ∨
      (∃ e, s.operandR b1 = .error e ∧ s.operandsRI b1 b2 = .error e) ∨
      (∃ i, s.operandR b1 = .ok i ∧ 255 < s.pc.toNat + 2 ∧ s.params.boundsMode = .fault ∧
        s.operandsRI b1 b2 = .error (.boundsFault (s.pc.toNat + 2))) := by
  unfold State.operandsRI
  cases h1 : s.operandR b1 with
  | error e => exact .inr (.inl ⟨e, rfl, rfl⟩)
  | ok i =>
    obtain ⟨h, e⟩ | ⟨h, hm, e⟩ := s.opnd_cases 2 b2
    · exact .inl ⟨i, rfl, h, by simp [e, bind, Except.bind, pure, Except.pure]⟩
    · exact .inr (.inr ⟨i, rfl, h, hm, by simp [e, bind, Except.bind]⟩)

end Sys2Proof.Machine
end

