-- ==== Sys2Proof/Laws/Step.lean ====
section
/-! SUPPORT. What one step can do, said once, and the small facts of fetching and decoding. -/

namespace Sys2Proof.Machine

@[simp] theorem recordTrace_byteAddr (s : State) (k : Nat) : s.recordTrace.byteAddr k = s.byteAddr k := by
  simp [State.byteAddr]

@[simp] theorem recordTrace_fetchBytes (s : State) : s.recordTrace.fetchBytes = s.fetchBytes := by
  simp [State.fetchBytes]

/-- Only a running core is not stopped. -/
theorem stopped_eq_none {s : State} : stopped s = none ↔ s.status = .run := by
  unfold stopped; cases s.status <;> simp

/-- A byte has a shape only by a row of the opcode map (R87). -/
theorem shapeOf_mem {op : Byte} {sh : Shape} (h : shapeOf op = some sh) : (op, sh) ∈ opcodeMap := by
  unfold shapeOf at h
  generalize opcodeMap = rows at h ⊢
  induction rows with
  | nil => simp at h
  | cons r rows ih =>
    obtain ⟨k, sh'⟩ := r
    simp only [List.lookup] at h
    split at h
    · rename_i hk
      simp only [beq_iff_eq] at hk
      simp only [Option.some.injEq] at h
      simp [hk, h]
    · exact List.mem_cons_of_mem _ (ih h)

/-- The opcode byte of a decoded instruction is the first byte, and its row fixes the instruction. -/
theorem opcodeOf_decode {op : Byte} {bs rest : List Byte} {i : Instr} (h : decode (op :: bs) = .ok (i, rest)) :
    opcodeOf i = op := by
  unfold decode at h
  simp only at h
  split at h
  · cases h
  all_goals first
    | (rename_i hs
       have hm := shapeOf_mem hs
       simp only [Except.ok.injEq, Prod.mk.injEq] at h
       obtain ⟨rfl, -⟩ := h
       simp only [opcodeMap, List.mem_cons, Prod.mk.injEq, List.not_mem_nil, or_false, reduceCtorEq, and_false,
         false_or, Shape.n.injEq, Shape.r.injEq, Shape.rr.injEq] at hm
       rcases hm with ⟨rfl, rfl⟩ | hm
       · rfl
       repeat' first | (rcases hm with ⟨rfl, rfl⟩ | hm; · rfl) | (obtain ⟨rfl, rfl⟩ := hm; rfl))
    | cases h

/-- A fault of the model's fault entry, in the terms of R206. -/
theorem raise_eq_faultedWith (s : State) (op : Byte) (e : Trap) :
    s.raise op e = s.faultedWith op (trapCode e) (trapInfo e) := rfl

/-- What a step that has a next state did: it took UnknownOpcode, or it ran the instruction it decoded. -/
theorem step_next {s t : State} (h : step s = .next t) :
    s.status = .run ∧
      ((∃ e, decode s.fetchBytes = .error e ∧ t = s.raise (s.memRead s.pc) .unknownOpcode) ∨
        ∃ i rest, decode s.fetchBytes = .ok (i, rest) ∧ opcodeOf i = s.memRead s.pc ∧
          exec i s.recordTrace = .next t) := by
  unfold step at h
  cases hs : s.status with
  | halt => simp [stopped, hs] at h
  | fault => simp [stopped, hs] at h
  | run =>
    simp only [stopped, hs] at h
    refine ⟨rfl, ?_⟩
    cases hd : decode s.fetchBytes with
    | error e =>
      simp only [hd, unknownOpcode, complete_error, Host.Outcome.next.injEq] at h
      exact .inl ⟨e, rfl, h.symm⟩
    | ok p =>
      obtain ⟨i, rest⟩ := p
      simp only [hd] at h
      exact .inr ⟨i, rest, rfl, opcodeOf_decode hd, h⟩

end Sys2Proof.Machine
end

