-- ==== Sys2Proof/Laws/Exec.lean ====
section
/-! SUPPORT. What an instruction that has a next state did, said once: it took one of its faults, or it completed. -/

namespace Sys2Proof.Machine

/-- A fault an instruction can take, with the detail it records (R116, R202). -/
def PreciseTrap (s : State) (e : Trap) : Prop :=
  (e = .boundsFault 256 ∧ s.params.boundsMode = .fault) ∨ ∃ b : Byte, e = .illegalRegister b ∧ 7 < b.toNat

/-- The state an instruction leaves when every check passes. -/
def Completed (s t : State) : Instr → Prop
  | .hlt => t = s.halt
  | .ret => t = (s.setSp (s.sp + 1)).setPc (s.memRead s.sp)
  | .ldi x imm => ∃ a : RegIdx, a.val = x.toNat ∧ s.InBounds 3 ∧ t = (s.setReg a imm).setPc (s.pc + 3)
  | .prn x => ∃ a : RegIdx, a.val = x.toNat ∧ s.InBounds 2 ∧ t = (s.emit (s.reg a)).setPc (s.pc + 2)
  | .mul x y => ∃ a b : RegIdx, a.val = x.toNat ∧ b.val = y.toNat ∧ s.InBounds 3 ∧
      t = (s.setReg a (s.reg a * s.reg b)).setPc (s.pc + 3)
  | .add x y => ∃ a b : RegIdx, a.val = x.toNat ∧ b.val = y.toNat ∧ s.InBounds 3 ∧
      t = (s.setReg a (s.reg a + s.reg b)).setPc (s.pc + 3)
  | .cmp x y => ∃ a b : RegIdx, a.val = x.toNat ∧ b.val = y.toNat ∧ s.InBounds 3 ∧
      t = (s.setFl (cmpFlags (s.reg a) (s.reg b))).setPc (s.pc + 3)
  | .push x => ∃ a : RegIdx, a.val = x.toNat ∧ s.InBounds 2 ∧
      t = (s.decSp.memWrite s.pushAddr (s.decSp.reg a)).setPc (s.pc + 2)
  | .pop x => ∃ a : RegIdx, a.val = x.toNat ∧ s.InBounds 2 ∧
      t = (s.setReg a (s.memRead s.sp)).incSp.setPc (s.pc + 2)
  | .call x => ∃ a : RegIdx, a.val = x.toNat ∧ s.InBounds 2 ∧
      t = (s.decSp.memWrite s.pushAddr (s.pc + 2)).setPc (s.decSp.reg a)
  | .jmp x => ∃ a : RegIdx, a.val = x.toNat ∧ s.InBounds 1 ∧ t = s.setPc (s.reg a)
  | .jeq x => ∃ a : RegIdx, a.val = x.toNat ∧
      ((flagE s.fl = true ∧ s.InBounds 1 ∧ t = s.setPc (s.reg a)) ∨
        (flagE s.fl = false ∧ s.InBounds 2 ∧ t = s.setPc (s.pc + 2)))
  | .jne x => ∃ a : RegIdx, a.val = x.toNat ∧
      ((flagE s.fl = false ∧ s.InBounds 1 ∧ t = s.setPc (s.reg a)) ∨
        (flagE s.fl = true ∧ s.InBounds 2 ∧ t = s.setPc (s.pc + 2)))

/-- The first address past 255 that the checks meet in order is 256 (R116). -/
theorem preciseTrap_bound {s : State} {k : Nat} (hk : s.InBounds (k - 1)) (h : 255 < s.pc.toNat + k)
    (hm : s.params.boundsMode = .fault) : PreciseTrap s (.boundsFault (s.pc.toNat + k)) := by
  rcases hk with hk | hk
  · have h256 : s.pc.toNat + k = 256 := by omega
    exact .inl ⟨by rw [h256], hm⟩
  · simp [hm] at hk

theorem inBounds_zero (s : State) : s.InBounds 0 := .inl (by have := s.pc.isLt; omega)

/-- The operand of format `R`: a register within bounds, or a precise fault. -/
theorem State.operandR_precise (s : State) (x : Byte) :
    (∃ a : RegIdx, a.val = x.toNat ∧ s.InBounds 1 ∧ s.operandR x = .ok a) ∨
      ∃ e, PreciseTrap s e ∧ s.operandR x = .error e := by
  obtain ⟨a, ha, hb, h⟩ | ⟨h1, hm, h⟩ | ⟨-, h7, h⟩ := s.operandR_cases x
  · exact .inl ⟨a, ha, hb, h⟩
  · exact .inr ⟨_, preciseTrap_bound (inBounds_zero s) h1 hm, h⟩
  · exact .inr ⟨_, .inr ⟨x, rfl, h7⟩, h⟩

/-- The operands of format `RR`: two registers within bounds, or a precise fault. -/
theorem State.operandsRR_precise (s : State) (x y : Byte) :
    (∃ a b : RegIdx, a.val = x.toNat ∧ b.val = y.toNat ∧ s.InBounds 2 ∧ s.operandsRR x y = .ok (a, b)) ∨
      ∃ e, PreciseTrap s e ∧ s.operandsRR x y = .error e := by
  obtain ⟨a, ha, hb1, h1⟩ | ⟨e, he, h1⟩ := s.operandR_precise x
  · obtain ⟨i, j, hi, hj, hb, h⟩ | ⟨e, he, -⟩ | ⟨i, hi, h2, hm, h⟩ | ⟨i, hi, -, h7, h⟩ := s.operandsRR_cases x y
    · rw [h1] at hi; cases hi; exact .inl ⟨a, j, ha, hj, hb, h⟩
    · rw [h1] at he; cases he
    · exact .inr ⟨_, preciseTrap_bound hb1 h2 hm, h⟩
    · exact .inr ⟨_, .inr ⟨y, rfl, h7⟩, h⟩
  · exact .inr ⟨e, he, by simp [State.operandsRR, h1, bind, Except.bind]⟩

/-- The operands of format `RI`: a register within bounds and the immediate, or a precise fault. -/
theorem State.operandsRI_precise (s : State) (x imm : Byte) :
    (∃ a : RegIdx, a.val = x.toNat ∧ s.InBounds 2 ∧ s.operandsRI x imm = .ok (a, imm)) ∨
      ∃ e, PreciseTrap s e ∧ s.operandsRI x imm = .error e := by
  obtain ⟨a, ha, hb1, h1⟩ | ⟨e, he, h1⟩ := s.operandR_precise x
  · obtain ⟨i, hi, hb, h⟩ | ⟨e, he, -⟩ | ⟨i, hi, h2, hm, h⟩ := s.operandsRI_cases x imm
    · rw [h1] at hi; cases hi; exact .inl ⟨a, ha, hb, h⟩
    · rw [h1] at he; cases he
    · exact .inr ⟨_, preciseTrap_bound hb1 h2 hm, h⟩
  · exact .inr ⟨e, he, by simp [State.operandsRI, h1, bind, Except.bind]⟩

/-- The sequential next pc after operands within bounds: `pc + w`, or a precise fault. -/
theorem State.seqpc_precise (s : State) {w : Nat} (h : s.InBounds (w - 1)) :
    (s.InBounds w ∧ s.seqpc w = .ok (s.pc + BitVec.ofNat 8 w)) ∨ ∃ e, PreciseTrap s e ∧ s.seqpc w = .error e := by
  obtain h1 | ⟨h1, hm, e⟩ := s.seqpc_cases w
  · exact .inl h1
  · exact .inr ⟨_, preciseTrap_bound h h1 hm, e⟩

/-- An instruction of format `RR` whose checks pass, or a precise fault. -/
theorem complete_RR {op x y : Byte} {s t : State} {f : RegIdx → RegIdx → Byte → State}
    (h : complete op s (do
      let (a, b) ← s.operandsRR x y
      let n ← s.seqpc 3
      pure (f a b n)) = .next t) :
    (∃ e, PreciseTrap s e ∧ t = s.raise op e) ∨
      ∃ a b : RegIdx, a.val = x.toNat ∧ b.val = y.toNat ∧ s.InBounds 3 ∧ t = f a b (s.pc + 3) := by
  obtain ⟨a, b, ha, hb, h2, ho⟩ | ⟨e, he, ho⟩ := s.operandsRR_precise x y
  · obtain ⟨h3, hn⟩ | ⟨e, he, hn⟩ := s.seqpc_precise (w := 3) h2
    · simp only [ho, hn, bind, Except.bind, pure, Except.pure, complete_ok, Host.Outcome.next.injEq] at h
      exact .inr ⟨a, b, ha, hb, h3, h.symm⟩
    · simp only [ho, hn, bind, Except.bind, complete_error, Host.Outcome.next.injEq] at h
      exact .inl ⟨e, he, h.symm⟩
  · simp only [ho, bind, Except.bind, complete_error, Host.Outcome.next.injEq] at h
    exact .inl ⟨e, he, h.symm⟩

/-- An instruction of format `R` with a sequential next pc whose checks pass, or a precise fault. -/
theorem complete_R {op x : Byte} {s t : State} {f : RegIdx → Byte → State}
    (h : complete op s (do
      let a ← s.operandR x
      let n ← s.seqpc 2
      pure (f a n)) = .next t) :
    (∃ e, PreciseTrap s e ∧ t = s.raise op e) ∨
      ∃ a : RegIdx, a.val = x.toNat ∧ s.InBounds 2 ∧ t = f a (s.pc + 2) := by
  obtain ⟨a, ha, h1, ho⟩ | ⟨e, he, ho⟩ := s.operandR_precise x
  · obtain ⟨h2, hn⟩ | ⟨e, he, hn⟩ := s.seqpc_precise (w := 2) h1
    · simp only [ho, hn, bind, Except.bind, pure, Except.pure, complete_ok, Host.Outcome.next.injEq] at h
      exact .inr ⟨a, ha, h2, h.symm⟩
    · simp only [ho, hn, bind, Except.bind, complete_error, Host.Outcome.next.injEq] at h
      exact .inl ⟨e, he, h.symm⟩
  · simp only [ho, bind, Except.bind, complete_error, Host.Outcome.next.injEq] at h
    exact .inl ⟨e, he, h.symm⟩

/-- A conditional jump: taken, not taken, or a precise fault. -/
theorem condJump_next {op x : Byte} {c : Bool} {s t : State} (h : condJump op c x s = .next t) :
    (∃ e, PreciseTrap s e ∧ t = s.raise op e) ∨
      ∃ a : RegIdx, a.val = x.toNat ∧ ((c = true ∧ s.InBounds 1 ∧ t = s.setPc (s.reg a)) ∨
        (c = false ∧ s.InBounds 2 ∧ t = s.setPc (s.pc + 2))) := by
  unfold condJump at h
  obtain ⟨a, ha, h1, ho⟩ | ⟨e, he, ho⟩ := s.operandR_precise x
  · cases c with
    | true =>
      simp only [ho, bind, Except.bind, pure, Except.pure, if_true, complete_ok, Host.Outcome.next.injEq] at h
      exact .inr ⟨a, ha, .inl ⟨rfl, h1, h.symm⟩⟩
    | false =>
      obtain ⟨h2, hn⟩ | ⟨e, he, hn⟩ := s.seqpc_precise (w := 2) h1
      · simp only [ho, hn, bind, Except.bind, pure, Except.pure, Bool.false_eq_true, if_false, complete_ok,
          Host.Outcome.next.injEq] at h
        exact .inr ⟨a, ha, .inr ⟨rfl, h2, h.symm⟩⟩
      · simp only [ho, hn, bind, Except.bind, Bool.false_eq_true, if_false, complete_error,
          Host.Outcome.next.injEq] at h
        exact .inl ⟨e, he, h.symm⟩
  · simp only [ho, bind, Except.bind, complete_error, Host.Outcome.next.injEq] at h
    exact .inl ⟨e, he, h.symm⟩

/-- What an instruction that has a next state did: it took a precise fault, from the whole state before it, or it
completed. -/
theorem exec_next {i : Instr} {s t : State} (h : exec i s = .next t) :
    (∃ e, PreciseTrap s e ∧ t = s.raise (opcodeOf i) e) ∨ Completed s t i := by
  cases i with
  | hlt => simp only [exec, execHlt, Host.Outcome.next.injEq] at h; exact .inr h.symm
  | ret => simp only [exec, execRet, incSp_eq, Host.Outcome.next.injEq] at h; exact .inr h.symm
  | prn x => exact complete_R h
  | push x =>
    obtain h | ⟨a, ha, hb, e⟩ := complete_R h
    · exact .inl h
    · exact .inr ⟨a, ha, hb, by simpa [State.decSp] using e⟩
  | pop x => exact complete_R h
  | call x =>
    obtain h | ⟨a, ha, hb, e⟩ :=
      complete_R (f := fun a n => (s.decSp.memWrite s.decSp.sp n).setPc ((s.decSp.memWrite s.decSp.sp n).reg a)) h
    · exact .inl h
    · exact .inr ⟨a, ha, hb, by simpa [State.decSp] using e⟩
  | mul x y =>
    obtain h | ⟨a, b, ha, hb, h3, e⟩ :=
      complete_RR (f := fun a b n => (s.setReg a (alu .mul (s.reg a) (s.reg b))).setPc n) h
    · exact .inl h
    · exact .inr ⟨a, b, ha, hb, h3, by rw [e, alu_mul]⟩
  | add x y =>
    obtain h | ⟨a, b, ha, hb, h3, e⟩ :=
      complete_RR (f := fun a b n => (s.setReg a (alu .add (s.reg a) (s.reg b))).setPc n) h
    · exact .inl h
    · exact .inr ⟨a, b, ha, hb, h3, by rw [e, alu_add]⟩
  | cmp x y => exact complete_RR (f := fun a b n => (s.setFl (alu .cmp (s.reg a) (s.reg b))).setPc n) h
  | ldi x imm =>
    simp only [exec, execLdi] at h
    obtain ⟨a, ha, h2, ho⟩ | ⟨e, he, ho⟩ := s.operandsRI_precise x imm
    · obtain ⟨h3, hn⟩ | ⟨e, he, hn⟩ := s.seqpc_precise (w := 3) h2
      · simp only [ho, hn, bind, Except.bind, pure, Except.pure, complete_ok, Host.Outcome.next.injEq] at h
        exact .inr ⟨a, ha, h3, h.symm⟩
      · simp only [ho, hn, bind, Except.bind, complete_error, Host.Outcome.next.injEq] at h
        exact .inl ⟨e, he, h.symm⟩
    · simp only [ho, bind, Except.bind, complete_error, Host.Outcome.next.injEq] at h
      exact .inl ⟨e, he, h.symm⟩
  | jmp x =>
    simp only [exec, execJmp] at h
    obtain ⟨a, ha, h1, ho⟩ | ⟨e, he, ho⟩ := s.operandR_precise x
    · simp only [ho, bind, Except.bind, pure, Except.pure, complete_ok, Host.Outcome.next.injEq] at h
      exact .inr ⟨a, ha, h1, h.symm⟩
    · simp only [ho, bind, Except.bind, complete_error, Host.Outcome.next.injEq] at h
      exact .inl ⟨e, he, h.symm⟩
  | jeq x => exact condJump_next h
  | jne x =>
    obtain h | ⟨a, ha, h⟩ := condJump_next h
    · exact .inl h
    · exact .inr ⟨a, ha, by simpa using h⟩

/-- No instruction stops the model: each has a next state, whatever its operands and the state. -/
theorem exec_answers (i : Instr) (s : State) : ∃ t, exec i s = .next t := by
  cases i <;> first
    | exact complete_answers _ _ _
    | exact ⟨_, rfl⟩

end Sys2Proof.Machine
end

