-- ==== Sys2Proof/Laws/PerInstr.lean ====
section
/-! SUPPORT. Facts of each instruction as syntax, one lemma a constructor. Family `Width` (R82): the listed width is
the number of encoded bytes, and is one more than the number in bits 7:6 of the opcode byte. -/

namespace Sys2Proof.Laws.Width

/-- R82: the width by the opcode map, by the encoded bytes, and by bits 7:6 of the opcode byte agree. -/
def Statement (i : Instr) : Prop :=
  (encode i).length = widthOf i ∧ widthOf i = 1 + ((opcodeOf i).extractLsb' 6 2).toNat

theorem hlt : Statement .hlt := ⟨rfl, by simp [widthOf, opcodeOf]⟩
theorem ldi (rA imm : Byte) : Statement (.ldi rA imm) := ⟨rfl, by simp [widthOf, opcodeOf]⟩
theorem prn (rA : Byte) : Statement (.prn rA) := ⟨rfl, by simp [widthOf, opcodeOf]⟩
theorem mul (rA rB : Byte) : Statement (.mul rA rB) := ⟨rfl, by simp [widthOf, opcodeOf]⟩
theorem add (rA rB : Byte) : Statement (.add rA rB) := ⟨rfl, by simp [widthOf, opcodeOf]⟩
theorem push (rA : Byte) : Statement (.push rA) := ⟨rfl, by simp [widthOf, opcodeOf]⟩
theorem pop (rA : Byte) : Statement (.pop rA) := ⟨rfl, by simp [widthOf, opcodeOf]⟩
theorem call (rA : Byte) : Statement (.call rA) := ⟨rfl, by simp [widthOf, opcodeOf]⟩
theorem ret : Statement .ret := ⟨rfl, by simp [widthOf, opcodeOf]⟩
theorem cmp (rA rB : Byte) : Statement (.cmp rA rB) := ⟨rfl, by simp [widthOf, opcodeOf]⟩
theorem jmp (rA : Byte) : Statement (.jmp rA) := ⟨rfl, by simp [widthOf, opcodeOf]⟩
theorem jeq (rA : Byte) : Statement (.jeq rA) := ⟨rfl, by simp [widthOf, opcodeOf]⟩
theorem jne (rA : Byte) : Statement (.jne rA) := ⟨rfl, by simp [widthOf, opcodeOf]⟩

end Sys2Proof.Laws.Width
end

