-- ==== Sys2Proof/Laws/Run.lean ====
section
/-! SUPPORT. The small lemmas of a run: none, one more step, and the end. -/

namespace Sys2Proof.Machine

@[simp] theorem run_zero (s : State) : run 0 s = s := rfl

/-- A state with a next state goes on from it. -/
theorem run_succ_of_next {s t : State} (h : step s = .next t) (n : Nat) : run (n + 1) s = run n t := by
  simp only [run, h]

/-- A state with no next state is the end of its run. -/
theorem run_of_no_step {s : State} (h : ∀ t, step s ≠ .next t) (n : Nat) : run n s = s := by
  cases n with
  | zero => rfl
  | succ n =>
    cases hs : step s with
    | next t => exact absurd hs (h t)
    | fault r => simp only [run, hs]
    | refused r => simp only [run, hs]

end Sys2Proof.Machine
end

