-- ==== Sys2Proof/Tests/Slice0.lean ====
section
/-! SUPPORT. Tests of the model by hand calculation from the spec (the vectors of spec/95_test_vectors.md are named in
each comment), and a witness for the hypotheses of every statement that has some. -/

namespace Sys2Proof.Tests

open Sys2Proof Sys2Proof.Machine

/-- The next state, if there is one. -/
def answer : Answer → Option State
  | .next t => some t
  | _ => none

/-- What a fault entry leaves: `STATUS`, `FCAUSE`, `FPC`, `FOP`, `FINFO`, `pc`. -/
def record (a : Answer) : Option (Status × BitVec 8 × Byte × Byte × BitVec 9 × Byte) :=
  (answer a).map fun t => (t.status, t.fcause, t.fpc, t.fop, t.finfo, t.pc)

/-- Reset under a bounds mode, at an address. -/
def st (pc : Byte) (m : BoundsMode) : State := { State.resetWith ⟨m, false⟩ with pc := pc }

/-- Reset at address 0 with two registers set. -/
def two (i : RegIdx) (v : Byte) (j : RegIdx) (w : Byte) : State := (State.reset.setReg i v).setReg j w

/-! ## Decoding: a word of every row, written out bit by bit from R87 and R81 (the last byte first) -/

theorem test_decode_hlt : decodeTableWord 8 0b00000001 = some .hlt := by decide
theorem test_decode_ldi : decodeTableWord 24 0b11111111_00000011_10000010 = some (.ldi 3 0xFF) := by decide
theorem test_decode_prn : decodeTableWord 16 0b00000011_01000111 = some (.prn 3) := by decide
theorem test_decode_mul : decodeTableWord 24 0b00000001_00000010_10100010 = some (.mul 2 1) := by decide
theorem test_decode_add : decodeTableWord 24 0b00000110_00000101_10100000 = some (.add 5 6) := by decide
theorem test_decode_push : decodeTableWord 16 0b00000111_01000101 = some (.push 7) := by decide
theorem test_decode_pop : decodeTableWord 16 0b00000001_01000110 = some (.pop 1) := by decide
theorem test_decode_call : decodeTableWord 16 0b00000001_01010000 = some (.call 1) := by decide
theorem test_decode_ret : decodeTableWord 8 0b00010001 = some .ret := by decide
theorem test_decode_cmp : decodeTableWord 24 0b00000010_00000000_10100111 = some (.cmp 0 2) := by decide
theorem test_decode_jmp : decodeTableWord 16 0b00000011_01010100 = some (.jmp 3) := by decide
theorem test_decode_jeq : decodeTableWord 16 0b00000010_01010101 = some (.jeq 2) := by decide
theorem test_decode_jne : decodeTableWord 16 0b00000011_01010110 = some (.jne 3) := by decide

/-- R88: 0x00 and 0xA1 (the LS-8 SUB) are no opcodes. R84: an operand byte out of range still decodes. -/
theorem test_decode_rejects :
    decodeTableWord 8 0x00 = none ∧ decodeTableWord 24 0x0100A1 = none ∧
      decodeTableWord 16 0xFF47 = some (.prn 0xFF) := by decide

/-- R87 lists no opcode twice. -/
theorem test_opcode_map_has_no_overlap : (opcodeMap.map Prod.fst).Nodup ∧ opcodeMap.length = 13 := by decide

/-- W7's image, byte by byte. -/
theorem test_encode :
    encode (.ldi 1 10) ++ encode (.mul 0 1) ++ encode (.prn 0) ++ encode .hlt =
      [0x82, 1, 0x0A, 0xA2, 0, 1, 0x47, 0, 1] := by decide

/-! ## WellFormed: an ill-formed term for each check (R84) -/

theorem test_wellFormed_refuses :
    [Instr.ldi 8 0, .prn 8, .mul 8 0, .mul 0 8, .add 8 0, .add 0 8, .push 8, .pop 255, .call 8, .cmp 8 0, .cmp 0 9,
      .jmp 8, .jeq 8, .jne 8].all (fun i => !i.wellFormed) = true := by decide

theorem test_wellFormed_accepts :
    [Instr.hlt, .ldi 7 255, .prn 7, .mul 7 7, .add 7 0, .push 7, .pop 7, .call 7, .ret, .cmp 0 7, .jmp 7, .jeq 7,
      .jne 7].all Instr.wellFormed = true := by decide

/-! ## One step each, from the vectors of spec/95_test_vectors.md -/

/-- V-D1: HLT keeps pc. -/
theorem test_hlt :
    (answer (step ((st 5 .fault).withFetchWord 8 0x01))).map (fun t => (t.status, t.pc)) = some (.halt, 5) := by decide

/-- V-LDI2: LDI R7 sets SP. -/
theorem test_ldi :
    (answer (step (State.reset.withFetchWord 24 0x100782))).map (fun t => (t.sp, t.pc)) = some (0x10, 3) := by decide

/-- V-PRN2: the unsigned byte is emitted. -/
theorem test_prn :
    (answer (step ((two 3 0xFF 0 0).withFetchWord 16 0x0347))).map (fun t => (t.out, t.pc)) = some ([0xFF], 2) := by
  decide

/-- V-MUL3: the low byte of 255 times 255. -/
theorem test_mul :
    (answer (step ((two 0 0xFF 1 0xFF).withFetchWord 24 0x0100A2))).map (fun t => (t.reg 0, t.reg 1, t.pc)) =
      some (0x01, 0xFF, 3) := by decide

/-- V-ADD2: 200 plus 100 wraps. -/
theorem test_add :
    (answer (step ((two 0 0xC8 1 0x64).withFetchWord 24 0x0100A0))).map (fun t => (t.reg 0, t.reg 1, t.pc)) =
      some (0x2C, 0x64, 3) := by decide

/-- V-CMP4: unsigned, 0x80 is greater than 0x7F. -/
theorem test_cmp :
    (answer (step ((two 0 0x80 1 0x7F).withFetchWord 24 0x0100A7))).map (fun t => (t.fl, t.reg 0, t.pc)) =
      some (0x02, 0x80, 3) := by decide

/-- V-ST6: a push from SP 0 goes to the top of memory. -/
theorem test_push_wraps :
    (answer (step ((two 7 0x00 0 0x66).withFetchWord 16 0x0045))).map (fun t => (t.sp, t.memRead 0xFF, t.pc)) =
      some (0xFF, 0x66, 2) := by decide

/-- V-ST3: PUSH R7 stores the decremented SP. -/
theorem test_push_sp :
    (answer (step (State.reset.withFetchWord 16 0x0745))).map (fun t => (t.sp, t.memRead 0xF3)) = some (0xF3, 0xF3) := by
  decide

/-- V-ST2: POP keeps the popped cell. -/
theorem test_pop :
    (answer (step (((two 7 0xF3 0 0).memWrite 0xF3 0x2A).withFetchWord 16 0x0146))).map
      (fun t => (t.reg 1, t.sp, t.memRead 0xF3, t.pc)) = some (0x2A, 0xF4, 0x2A, 2) := by decide

/-- V-ST5: POP R7 ends with the popped byte plus 1. -/
theorem test_pop_sp :
    (answer (step (((two 7 0xF3 0 0).memWrite 0xF3 0x20).withFetchWord 16 0x0746))).map (fun t => t.sp) =
      some 0x21 := by decide

/-- V-BR11: CALL R7 jumps to the decremented SP. -/
theorem test_call_sp :
    (answer (step ((st 0x20 .fault).withFetchWord 16 0x0750))).map (fun t => (t.sp, t.memRead 0xF3, t.pc)) =
      some (0xF3, 0x22, 0xF3) := by decide

/-- V-BR19: RET at 0xFF. -/
theorem test_ret_at_top :
    (answer (step ((((st 0xFF .fault).setSp 0xF3).memWrite 0xF3 0x05).withFetchWord 8 0x11))).map
      (fun t => (t.pc, t.sp)) = some (0x05, 0xF4) := by decide

/-- V-BR15: JMP at 0xFE needs no successor. -/
theorem test_jmp_at_top :
    (answer (step (((st 0xFE .fault).setReg 1 0x30).withFetchWord 16 0x0154))).map (fun t => (t.pc, t.status)) =
      some (0x30, .run) := by decide

/-- V-BR17: JEQ at 0xFE, not taken, is a BoundsFault. -/
theorem test_jeq_not_taken_at_top :
    record (step ((((st 0xFE .fault).setReg 1 0x30).setFl 4).withFetchWord 16 0x0155)) =
      some (.fault, 3, 0xFE, 0x55, 256, 0xFE) := by decide

/-- V-BR8: G alone does not stop JNE. -/
theorem test_jne :
    (answer (step ((((st 0x14 .fault).setReg 3 0x0C).setFl 2).withFetchWord 16 0x0356))).map (fun t => t.pc) =
      some 0x0C := by decide

/-- V-D3: reset memory is an unknown opcode. -/
theorem test_unknown_opcode : record (step State.reset) = some (.fault, 1, 0, 0, 0, 0) := by decide

/-- V-D7: operand 1's register check precedes operand 2's. -/
theorem test_check_order :
    record (step (State.reset.withFetchWord 24 0x0A09A0)) = some (.fault, 2, 0, 0xA0, 9, 0) := by decide

/-- V-ALU-E4: in `wrap` ADD at 0xFD goes on at 0. -/
theorem test_wrap :
    (answer (step ((((st 0xFD .wrap).setReg 0 1).setReg 1 2).withFetchWord 24 0x0100A0))).map
      (fun t => (t.reg 0, t.pc, t.status)) = some (3, 0, .run) := by decide

/-- V-D5: a halted core has no step. -/
theorem test_halted : answer (step { State.reset with status := .halt }) = none := by decide

/-- R215: the entry holds pc, the opcode, the two bytes after it and the registers before the instruction. -/
theorem test_trace :
    (answer (step ((State.resetWith ⟨.fault, true⟩).withFetchWord 24 0x080082))).map (fun t => t.trace) =
      some [⟨0, 0x82, 0x00, 0x08, #v[0, 0, 0, 0, 0, 0, 0, 0xF4]⟩] := by decide

/-- R32: the host's encoding of STATUS. -/
theorem test_status_code : [Status.run, .halt, .fault].map Status.code = [0, 1, 2] := by decide

/-- R91: spellings, with SP for R7. -/
theorem test_spellings :
    (Instr.cmp 0 7).spellings = ["CMP R0, R7", "CMP R0, SP"] ∧
      (Instr.ldi 0 0x2A).spellings = ["LDI R0, 42", "LDI R0, 0x2A", "LDI R0, 0b00101010"] := by decide

/-! ## Witnesses: states and operands that meet the hypotheses of each statement, at the edges of its clauses -/

/-- AddWritesTheWrappedSum: each clause at its boundary, and what the model answers there. -/
theorem witness_AddWritesTheWrappedSum :
    ((st 252 .fault).InBounds 3 ∧ (answer (exec (.add 0 7) (st 252 .fault))).map (·.pc) = some 255) ∧
    ((st 255 .wrap).InBounds 3 ∧ (answer (exec (.add 7 0) (st 255 .wrap))).map (·.pc) = some 2) ∧
    ((st 255 .fault).PastTop 1 ∧ record (exec (.add 9 9) (st 255 .fault)) = some (.fault, 3, 255, 0xA0, 256, 255)) ∧
    ((st 254 .fault).InBounds 1 ∧ record (exec (.add 8 9) (st 254 .fault)) = some (.fault, 2, 254, 0xA0, 8, 254)) ∧
    ((st 254 .fault).PastTop 2 ∧ record (exec (.add 7 9) (st 254 .fault)) = some (.fault, 3, 254, 0xA0, 256, 254)) ∧
    ((st 253 .fault).InBounds 2 ∧ record (exec (.add 7 8) (st 253 .fault)) = some (.fault, 2, 253, 0xA0, 8, 253)) ∧
    ((st 253 .fault).PastTop 3 ∧ record (exec (.add 7 7) (st 253 .fault)) = some (.fault, 3, 253, 0xA0, 256, 253)) := by
  refine ⟨?_, ?_, ?_, ?_, ?_, ?_, ?_⟩ <;> decide

theorem witness_MulWritesTheLowByte :
    ((st 252 .fault).InBounds 3 ∧ (answer (exec (.mul 0 7) (st 252 .fault))).map (·.pc) = some 255) ∧
    ((st 255 .wrap).InBounds 3 ∧ (answer (exec (.mul 7 0) (st 255 .wrap))).map (·.pc) = some 2) ∧
    ((st 255 .fault).PastTop 1 ∧ record (exec (.mul 9 9) (st 255 .fault)) = some (.fault, 3, 255, 0xA2, 256, 255)) ∧
    ((st 254 .fault).InBounds 1 ∧ record (exec (.mul 8 9) (st 254 .fault)) = some (.fault, 2, 254, 0xA2, 8, 254)) ∧
    ((st 254 .fault).PastTop 2 ∧ record (exec (.mul 7 9) (st 254 .fault)) = some (.fault, 3, 254, 0xA2, 256, 254)) ∧
    ((st 253 .fault).InBounds 2 ∧ record (exec (.mul 7 8) (st 253 .fault)) = some (.fault, 2, 253, 0xA2, 8, 253)) ∧
    ((st 253 .fault).PastTop 3 ∧ record (exec (.mul 7 7) (st 253 .fault)) = some (.fault, 3, 253, 0xA2, 256, 253)) := by
  refine ⟨?_, ?_, ?_, ?_, ?_, ?_, ?_⟩ <;> decide

theorem witness_CmpOverwritesTheFlags :
    ((st 252 .fault).InBounds 3 ∧ (answer (exec (.cmp 0 7) (st 252 .fault))).map (·.pc) = some 255) ∧
    ((st 255 .wrap).InBounds 3 ∧ (answer (exec (.cmp 7 0) (st 255 .wrap))).map (·.pc) = some 2) ∧
    ((st 255 .fault).PastTop 1 ∧ record (exec (.cmp 9 9) (st 255 .fault)) = some (.fault, 3, 255, 0xA7, 256, 255)) ∧
    ((st 254 .fault).InBounds 1 ∧ record (exec (.cmp 8 9) (st 254 .fault)) = some (.fault, 2, 254, 0xA7, 8, 254)) ∧
    ((st 254 .fault).PastTop 2 ∧ record (exec (.cmp 7 9) (st 254 .fault)) = some (.fault, 3, 254, 0xA7, 256, 254)) ∧
    ((st 253 .fault).InBounds 2 ∧ record (exec (.cmp 7 8) (st 253 .fault)) = some (.fault, 2, 253, 0xA7, 8, 253)) ∧
    ((st 253 .fault).PastTop 3 ∧ record (exec (.cmp 7 7) (st 253 .fault)) = some (.fault, 3, 253, 0xA7, 256, 253)) := by
  refine ⟨?_, ?_, ?_, ?_, ?_, ?_, ?_⟩ <;> decide

theorem witness_HltHalts :
    (answer (exec .hlt State.reset)).map (·.status) = some .halt ∧
    (answer (step (State.reset.withFetchWord 8 0x01))).map (fun t => (t.status, t.pc)) = some (.halt, 0) := by decide

theorem witness_LdiLoadsTheImmediate :
    ((st 252 .fault).InBounds 3 ∧ (answer (exec (.ldi 7 9) (st 252 .fault))).map (·.pc) = some 255) ∧
    ((st 255 .wrap).InBounds 3 ∧ (answer (exec (.ldi 0 9) (st 255 .wrap))).map (·.pc) = some 2) ∧
    ((st 255 .fault).PastTop 1 ∧ record (exec (.ldi 9 9) (st 255 .fault)) = some (.fault, 3, 255, 0x82, 256, 255)) ∧
    ((st 254 .fault).InBounds 1 ∧ record (exec (.ldi 8 9) (st 254 .fault)) = some (.fault, 2, 254, 0x82, 8, 254)) ∧
    ((st 254 .fault).PastTop 2 ∧ record (exec (.ldi 7 9) (st 254 .fault)) = some (.fault, 3, 254, 0x82, 256, 254)) ∧
    ((st 253 .fault).PastTop 3 ∧ record (exec (.ldi 7 255) (st 253 .fault)) = some (.fault, 3, 253, 0x82, 256, 253)) := by
  refine ⟨?_, ?_, ?_, ?_, ?_, ?_⟩ <;> decide

theorem witness_PrnEmitsTheRegister :
    ((st 253 .fault).InBounds 2 ∧ (answer (exec (.prn 7) (st 253 .fault))).map (·.pc) = some 255) ∧
    ((st 255 .wrap).InBounds 2 ∧ (answer (exec (.prn 0) (st 255 .wrap))).map (·.pc) = some 1) ∧
    ((st 255 .fault).PastTop 1 ∧ record (exec (.prn 9) (st 255 .fault)) = some (.fault, 3, 255, 0x47, 256, 255)) ∧
    ((st 254 .fault).InBounds 1 ∧ record (exec (.prn 8) (st 254 .fault)) = some (.fault, 2, 254, 0x47, 8, 254)) ∧
    ((st 254 .fault).PastTop 2 ∧ record (exec (.prn 7) (st 254 .fault)) = some (.fault, 3, 254, 0x47, 256, 254)) := by
  refine ⟨?_, ?_, ?_, ?_, ?_⟩ <;> decide

theorem witness_PushStoresBelowTheStack :
    ((st 253 .fault).InBounds 2 ∧ Memory.wf (st 253 .fault).mem = true ∧ (answer (exec (.push 7) (st 253 .fault))).map (·.pc) = some 255) ∧
    ((st 255 .wrap).InBounds 2 ∧ Memory.wf (st 253 .fault).mem = true ∧ (answer (exec (.push 0) (st 255 .wrap))).map (·.pc) = some 1) ∧
    ((st 255 .fault).PastTop 1 ∧ record (exec (.push 9) (st 255 .fault)) = some (.fault, 3, 255, 0x45, 256, 255)) ∧
    ((st 254 .fault).InBounds 1 ∧ record (exec (.push 8) (st 254 .fault)) = some (.fault, 2, 254, 0x45, 8, 254)) ∧
    ((st 254 .fault).PastTop 2 ∧ record (exec (.push 7) (st 254 .fault)) = some (.fault, 3, 254, 0x45, 256, 254)) := by
  refine ⟨?_, ?_, ?_, ?_, ?_⟩ <;> decide

theorem witness_PopLoadsTheTopOfStack :
    ((st 253 .fault).InBounds 2 ∧ (answer (exec (.pop 7) (st 253 .fault))).map (·.pc) = some 255) ∧
    ((st 255 .wrap).InBounds 2 ∧ (answer (exec (.pop 0) (st 255 .wrap))).map (·.pc) = some 1) ∧
    ((st 255 .fault).PastTop 1 ∧ record (exec (.pop 9) (st 255 .fault)) = some (.fault, 3, 255, 0x46, 256, 255)) ∧
    ((st 254 .fault).InBounds 1 ∧ record (exec (.pop 8) (st 254 .fault)) = some (.fault, 2, 254, 0x46, 8, 254)) ∧
    ((st 254 .fault).PastTop 2 ∧ record (exec (.pop 7) (st 254 .fault)) = some (.fault, 3, 254, 0x46, 256, 254)) := by
  refine ⟨?_, ?_, ?_, ?_, ?_⟩ <;> decide

theorem witness_CallPushesTheReturnAddress :
    ((st 253 .fault).InBounds 2 ∧ Memory.wf (st 253 .fault).mem = true ∧ (answer (exec (.call 7) (st 253 .fault))).map (·.pc) = some 0xF3) ∧
    ((st 255 .wrap).InBounds 2 ∧ Memory.wf (st 253 .fault).mem = true ∧ (answer (exec (.call 0) (st 255 .wrap))).map (·.pc) = some 0) ∧
    ((st 255 .fault).PastTop 1 ∧ record (exec (.call 9) (st 255 .fault)) = some (.fault, 3, 255, 0x50, 256, 255)) ∧
    ((st 254 .fault).InBounds 1 ∧ record (exec (.call 8) (st 254 .fault)) = some (.fault, 2, 254, 0x50, 8, 254)) ∧
    ((st 254 .fault).PastTop 2 ∧ record (exec (.call 7) (st 254 .fault)) = some (.fault, 3, 254, 0x50, 256, 254)) := by
  refine ⟨?_, ?_, ?_, ?_, ?_⟩ <;> decide

theorem witness_JmpGoesToTheRegister :
    ((st 254 .fault).InBounds 1 ∧ (answer (exec (.jmp 7) (st 254 .fault))).map (·.pc) = some 0xF4) ∧
    ((st 255 .wrap).InBounds 1 ∧ (answer (exec (.jmp 0) (st 255 .wrap))).map (·.pc) = some 0) ∧
    ((st 255 .fault).PastTop 1 ∧ record (exec (.jmp 9) (st 255 .fault)) = some (.fault, 3, 255, 0x54, 256, 255)) ∧
    ((st 254 .fault).InBounds 1 ∧ record (exec (.jmp 8) (st 254 .fault)) = some (.fault, 2, 254, 0x54, 8, 254)) := by
  refine ⟨?_, ?_, ?_, ?_⟩ <;> decide

theorem witness_JeqTakenIfEqual :
    (((st 254 .fault).setFl 1).InBounds 1 ∧ ((st 254 .fault).setFl 1).fl.getLsbD 0 = true ∧
      (answer (exec (.jeq 7) ((st 254 .fault).setFl 1))).map (·.pc) = some 0xF4) ∧
    (((st 253 .fault).setFl 4).InBounds 2 ∧ ((st 253 .fault).setFl 4).fl.getLsbD 0 = false ∧
      (answer (exec (.jeq 7) ((st 253 .fault).setFl 4))).map (·.pc) = some 255) ∧
    ((st 255 .fault).PastTop 1 ∧ record (exec (.jeq 9) (st 255 .fault)) = some (.fault, 3, 255, 0x55, 256, 255)) ∧
    ((st 254 .fault).InBounds 1 ∧ record (exec (.jeq 8) (st 254 .fault)) = some (.fault, 2, 254, 0x55, 8, 254)) ∧
    (((st 254 .fault).setFl 4).PastTop 2 ∧
      record (exec (.jeq 7) ((st 254 .fault).setFl 4)) = some (.fault, 3, 254, 0x55, 256, 254)) := by
  refine ⟨?_, ?_, ?_, ?_, ?_⟩ <;> decide

theorem witness_JneTakenIfNotEqual :
    (((st 254 .fault).setFl 2).InBounds 1 ∧ ((st 254 .fault).setFl 2).fl.getLsbD 0 = false ∧
      (answer (exec (.jne 7) ((st 254 .fault).setFl 2))).map (·.pc) = some 0xF4) ∧
    (((st 253 .fault).setFl 1).InBounds 2 ∧ ((st 253 .fault).setFl 1).fl.getLsbD 0 = true ∧
      (answer (exec (.jne 7) ((st 253 .fault).setFl 1))).map (·.pc) = some 255) ∧
    ((st 255 .fault).PastTop 1 ∧ record (exec (.jne 9) (st 255 .fault)) = some (.fault, 3, 255, 0x56, 256, 255)) ∧
    ((st 254 .fault).InBounds 1 ∧ record (exec (.jne 8) (st 254 .fault)) = some (.fault, 2, 254, 0x56, 8, 254)) ∧
    (((st 254 .fault).setFl 1).PastTop 2 ∧
      record (exec (.jne 7) ((st 254 .fault).setFl 1)) = some (.fault, 3, 254, 0x56, 256, 254)) := by
  refine ⟨?_, ?_, ?_, ?_, ?_⟩ <;> decide

theorem witness_StackLaws :
    ((st 251 .fault).InBounds 4 ∧ Memory.wf (st 251 .fault).mem = true ∧ (st 247 .fault).InBounds 8 ∧
      Memory.wf (st 247 .fault).mem = true ∧ (st 253 .fault).InBounds 2 ∧ (6 : RegIdx) ≠ 7 ∧ (0 : RegIdx) ≠ 1) ∧
    ((st 255 .wrap).InBounds 8 ∧ (6 : Byte).toNat = (6 : RegIdx).val ∧ (7 : Byte).toNat = (7 : RegIdx).val) := by
  refine ⟨?_, ?_⟩ <;> decide

theorem witness_RetAfterCallResumes :
    (st 253 .fault).InBounds 2 ∧
    Memory.wf (st 253 .fault).mem = true ∧
    (answer (exec (.call 7) (st 253 .fault))).map (fun t => (t.reg 7, t.memRead (t.reg 7))) =
      some (0xF3, 255) := by
  decide

theorem witness_ResetSetsEveryField :
    State.reset = State.resetWith defaultParams ∧ (0 : RegIdx) ≠ 7 ∧ State.reset.reg 0 = 0 ∧ State.reset.reg 6 = 0 := by
  decide

theorem witness_DecodeFollowsTheOpcodeMap : (0x00 : Byte) ∉ opcodes ∧ (0xA1 : Byte) ∉ opcodes := by decide

theorem witness_ResetAndLaunchMeetInvariant :
    (match launch defaultParams [0x82, 0x00, 0x08] with
      | .ok _ => true
      | .error _ => false) = true := by decide

/-- Images of 0, 256 and 257 bytes. -/
theorem witness_LaunchPlacesTheImage :
    (List.replicate 256 (1 : Byte)).length ≤ 256 ∧ 256 < (List.replicate 257 (1 : Byte)).length ∧
    ([] : List Byte).length ≤ 256 ∧
    ((match launch defaultParams [0x82, 0x00, 0x08] with
      | .ok s => some (s.memRead 0, s.memRead 2, s.memRead 3)
      | .error _ => none) = some (0x82, 0x08, 0x00)) := by
  refine ⟨Nat.le_of_eq List.length_replicate, by rw [List.length_replicate]; omega, by decide, by decide⟩

/-- StepKeepsInvariant: reset meets the invariant and has a next state (UnknownOpcode). -/
theorem witness_StepKeepsInvariant : Inv State.reset ∧ (answer (step State.reset)).isSome = true :=
  ⟨⟨rfl, .inl rfl, fun _ => ⟨rfl, rfl, rfl, rfl⟩, (fun h => by cases h), (fun h => by cases h), fun _ => rfl⟩, by decide⟩

theorem witness_CanonicalMemoryIsUnique :
    Memory.wf [(0, 1), (255, 2)] = true ∧ Memory.wf [(1, 1), (0, 2)] = false ∧ Memory.wf [(0, 0)] = false ∧
    Memory.wf [(256, 1)] = false ∧ ∀ a < 256, Memory.read [(0, 1), (255, 2)] a = Memory.read [(0, 1), (255, 2)] a := by
  refine ⟨by decide, by decide, by decide, by decide, fun _ _ => rfl⟩

/-- A running state at the top of memory whose bytes wrap, ADD R0, R1. -/
def addAtTop : State := (st 0xFF .wrap).withFetchWord 24 0x0100A0

theorem witness_StepRunsDecodedInstruction :
    addAtTop.status = .run ∧
    decode [addAtTop.memRead addAtTop.pc, addAtTop.memRead (addAtTop.pc + 1), addAtTop.memRead (addAtTop.pc + 2)] =
      .ok (.add 0 1, []) := ⟨by decide, by rfl⟩

theorem witness_UnknownOpcodeStopsTheCore : State.reset.status = .run ∧ State.reset.memRead State.reset.pc ∉ opcodes := by
  decide

theorem witness_StoppedCoreHasNoStep :
    State.reset.halt.status = .halt ∧ (State.reset.raise 0 .unknownOpcode).status = .fault := by decide

theorem witness_RunningCoreAlwaysSteps : State.reset.status = .run ∧ (answer (step State.reset)).isSome = true := by decide

/-- One state for each kind of outcome: unknown byte, a failing check, no failing check. -/
theorem witness_FirstFailingCheckIsReported :
    State.reset.status = .run ∧ State.reset.memRead 0 ∉ opcodes ∧
    decode ((State.reset.withFetchWord 24 0x0A07A0).fetchBytes) = .ok (.add 7 10, []) ∧
    ((checksOf (State.reset.withFetchWord 24 0x0A07A0) (.add 7 10)).find? (·.fails)).isSome = true ∧
    ((checksOf (State.reset.withFetchWord 24 0x0707A0) (.add 7 7)).find? (·.fails)).isNone = true :=
  ⟨by decide, by decide, by rfl, by decide, by decide⟩

theorem witness_FaultsArePrecise : (answer (step State.reset)).map (·.status) = some .fault := by decide

theorem witness_BoundsFaultCarries256 :
    (answer (step ((st 255 .fault).withFetchWord 8 0x54))).map (fun t => (t.status, t.fcause)) = some (.fault, 3) := by
  decide

/-- Both sides of each edge of the rule's list. -/
theorem witness_BoundsFaultExactlyNearTheTop :
    (Instr.ldi 0 0).wellFormed = true ∧ boundsFaultAt (st 0xFD .fault) (.ldi 0 0) ∧
    ¬ boundsFaultAt (st 0xFC .fault) (.ldi 0 0) ∧ boundsFaultAt (st 0xFE .fault) (.prn 0) ∧
    ¬ boundsFaultAt (st 0xFD .fault) (.prn 0) ∧ boundsFaultAt (st 0xFF .fault) (.jmp 0) ∧
    ¬ boundsFaultAt (st 0xFE .fault) (.jmp 0) ∧ boundsFaultAt (st 0xFE .fault) (.jeq 0) ∧
    ¬ boundsFaultAt (st 0xFE .fault) (.jne 0) ∧ ¬ boundsFaultAt (st 0xFF .fault) .ret := by
  refine ⟨by decide, ?_⟩
  simp [boundsFaultAt, st, State.resetWith]

/-- The last clause: a BoundsFault that no operand is to blame for, and one before an operand out of range. -/
theorem witness_BoundsFaultExactlyNearTheTop_record :
    (st 255 .fault).status = .run ∧
    record (exec (.jmp 0) (st 255 .fault)) = some (.fault, 3, 255, 0x54, 256, 255) ∧
    record (exec (.add 0 9) (st 254 .fault)) = some (.fault, 3, 254, 0xA0, 256, 254) := by
  refine ⟨?_, ?_, ?_⟩ <;> decide

theorem witness_ParametersNeverChange :
    (answer (step ((st 0 .wrap).withFetchWord 8 0x01))).map (·.params) = some ⟨.wrap, false⟩ := by decide

/-- A CMP that completes, and any other byte. -/
theorem witness_OnlyCmpWritesFlags :
    (State.reset.withFetchWord 24 0x0100A7).memRead 0 = 0xA7 ∧
    (answer (step (State.reset.withFetchWord 24 0x0100A7))).map (·.fl) = some 0x01 ∧
    (State.reset.withFetchWord 24 0x0100A0).memRead 0 ≠ 0xA7 ∧
    (answer (step (State.reset.withFetchWord 24 0x0100A0))).map (·.fl) = some 0x00 := by decide

/-- FlagsReadOnlyThroughBitE: a flags value that agrees in bit 0 at a JEQ, any value elsewhere. -/
theorem witness_FlagsReadOnlyThroughBitE :
    (answer (step ((State.reset.setFl 4).withFetchWord 16 0x0055))).isSome = true ∧
    (2 : Byte).getLsbD 0 = ((State.reset.setFl 4).withFetchWord 16 0x0055).fl.getLsbD 0 ∧
    (State.reset.withFetchWord 24 0x0100A7).memRead 0 ≠ 0x55 := by decide

theorem witness_OnlyPrnEmits :
    (answer (step (State.reset.withFetchWord 16 0x0747))).map (fun t => t.out) = some [0xF4] := by decide

theorem witness_OnlyPushAndCallWriteMemory :
    (State.reset.withFetchWord 16 0x0745).memRead 0xF3 = 0 ∧
    (answer (step (State.reset.withFetchWord 16 0x0745))).map (fun t => t.memRead 0xF3) = some 0xF3 := by decide

theorem witness_TraceRecordsDecodedSteps :
    (answer (step ((State.resetWith ⟨.fault, true⟩).withFetchWord 8 0x01))).map (fun t => t.trace.length) = some 1 ∧
    (answer (step (State.resetWith ⟨.fault, true⟩))).map (fun t => t.trace.length) = some 0 := by decide

theorem witness_TraceDoesNotInfluenceTheCore :
    ((State.resetWith ⟨.fault, true⟩).withFetchWord 8 0x01).untraced = (State.reset.withFetchWord 8 0x01).untraced ∧
    (State.resetWith ⟨.fault, true⟩).withFetchWord 8 0x01 ≠ State.reset.withFetchWord 8 0x01 ∧
    (answer (step (State.reset.withFetchWord 8 0x01))).isSome = true ∧
    (answer (step State.reset.halt)).isSome = false := by decide

theorem witness_EncodeOfDecode : decode [0x46, 0x01, 0xFF] = .ok (.pop 1, [0xFF]) := by rfl

theorem witness_EveryByteDecodesOrIsUnknown :
    (0xA7 : Byte) ∈ opcodes ∧ (Instr.cmp 0 8).wellFormed = false ∧ (0xA1 : Byte) ∉ opcodes := by decide

theorem witness_AluResults :
    (5 : Byte).toNat = (5 : Byte).toNat ∧ (0x7F : Byte).toNat < (0x80 : Byte).toNat ∧ alu .sub 0 1 = 255 ∧
    alu .mul 16 16 = 0 := by decide

/-- The frame statements: each named form has a next state, one that completes and one that faults. -/
theorem witness_RegisterWritesFrame :
    [Instr.add 0 1, .mul 7 7, .ldi 7 255, .add 8 0, .mul 0 8, .ldi 8 0].map
      (fun i => (answer (exec i State.reset)).map (·.status)) =
    [some .run, some .run, some .run, some .fault, some .fault, some .fault] := by decide

theorem witness_CompareFrame :
    [Instr.cmp 0 7, .cmp 0 8].map (fun i => (answer (exec i State.reset)).map (·.status)) = [some .run, some .fault] := by
  decide

theorem witness_PrintAndJumpFrame :
    [Instr.prn 7, .jmp 7, .jeq 7, .jne 7, .prn 8, .jmp 8, .jeq 8, .jne 8].map
      (fun i => (answer (exec i State.reset)).map (·.status)) =
    [some .run, some .run, some .run, some .run, some .fault, some .fault, some .fault, some .fault] := by decide

theorem witness_PushAndCallFrame :
    [Instr.push 7, .call 7, .push 8, .call 8].map (fun i => (answer (exec i State.reset)).map (·.status)) =
    [some .run, some .run, some .fault, some .fault] := by decide

theorem witness_PopAndRetFrame :
    [Instr.pop 7, .ret, .pop 8].map (fun i => (answer (exec i State.reset)).map (·.status)) =
    [some .run, some .run, some .fault] := by decide

theorem witness_HaltFrame : (answer (exec .hlt State.reset)).map (·.status) = some .halt := by decide

/-- A memory written and written back reads alike, and is the same list. -/
theorem witness_StateIsTheListedFieldsAlone :
    Memory.wf ((State.reset.memWrite 5 1).memWrite 5 0).mem = true ∧ Memory.wf State.reset.mem = true ∧
    (State.reset.memWrite 5 1).mem ≠ State.reset.mem ∧ (State.reset.memWrite 5 1).memWrite 5 0 = State.reset := by
  decide

/-- HLT at 0: one step leads to the end of the run. -/
theorem witness_RunIsOneSequenceOfSteps :
    (run 0 (State.reset.withFetchWord 8 0x01)).status = .run ∧
    (run 1 (State.reset.withFetchWord 8 0x01)).status = .halt := by decide

end Sys2Proof.Tests
end

section
/-! The state of the core (spec/10_state.md): what each step keeps of it, what it can read, and its reset. -/

namespace Sys2Proof.Machine

/-! ### Opcode bytes and decoding -/

theorem opcodeOf_mem_opcodes (i : Instr) : opcodeOf i ∈ opcodes := by
  cases i <;> simp [opcodeOf, opcodes]

theorem opcodeOf_eq_cmp {i : Instr} : opcodeOf i = 0xA7 ↔ ∃ x y, i = .cmp x y := by
  cases i <;> simp [opcodeOf]

theorem opcodeOf_eq_jeq {i : Instr} : opcodeOf i = 0x55 ↔ ∃ x, i = .jeq x := by
  cases i <;> simp [opcodeOf]

theorem opcodeOf_eq_jne {i : Instr} : opcodeOf i = 0x56 ↔ ∃ x, i = .jne x := by
  cases i <;> simp [opcodeOf]

/-- R88: three fetched bytes fail to decode only if the first is none of the thirteen opcodes. -/
theorem not_mem_opcodes_of_decode_error {op b1 b2 : Byte} {r : DecodeReject} (h : decode [op, b1, b2] = .error r) :
    op ∉ opcodes := by
  intro hop
  simp only [opcodes, List.mem_cons, List.not_mem_nil, or_false] at hop
  rcases hop with rfl | rfl | rfl | rfl | rfl | rfl | rfl | rfl | rfl | rfl | rfl | rfl | rfl <;> cases h

/-- The operand of a PRN is the byte after its opcode byte. -/
theorem prn_operand_of_decode {s : State} {x : Byte} {rest : List Byte} (h : decode s.fetchBytes = .ok (.prn x, rest)) :
    x = s.memRead (s.pc + 1) := by
  have hop : s.memRead s.pc = 0x47 := (opcodeOf_decode h).symm
  have h1 : s.byteAddr 1 = s.pc + 1 := u8_add s.pc 1
  rw [State.fetchBytes, hop, h1] at h
  cases h
  rfl

/-! ### What a step does, forwards -/

theorem step_of_decode_error {s : State} {r : DecodeReject} (hs : s.status = .run)
    (h : decode s.fetchBytes = .error r) : step s = .next (s.raise (s.memRead s.pc) .unknownOpcode) := by
  simp [step, stopped_eq_none.mpr hs, h, unknownOpcode]

theorem step_of_decode_ok {s : State} {i : Instr} {rest : List Byte} (hs : s.status = .run)
    (h : decode s.fetchBytes = .ok (i, rest)) : step s = exec i s.recordTrace := by
  simp [step, stopped_eq_none.mpr hs, h]

/-- A running core has a next state, at every byte. -/
theorem step_answers_of_run {s : State} (hs : s.status = .run) : ∃ t, step s = .next t := by
  cases h : decode s.fetchBytes with
  | error r => exact ⟨_, step_of_decode_error hs h⟩
  | ok p => exact step_of_decode_ok (i := p.1) (rest := p.2) hs h ▸ exec_answers p.1 s.recordTrace

/-! ### What a completed instruction writes beside registers and `pc` -/

/-- The writes of a completed instruction, sorted by the one field it can write beside registers and `pc`. -/
inductive Effect (s : State) : Instr → State → Prop
  /-- HLT writes `STATUS` alone. -/
  | halt : Effect s .hlt s.halt
  /-- CMP writes `FL`. -/
  | flags (x y a b n : Byte) : Effect s (.cmp x y) ((s.setFl (cmpFlags a b)).setPc n)
  /-- PRN appends to `OUT` the register its operand names. -/
  | output (x : Byte) (a : RegIdx) (n : Byte) (ha : a.val = x.toNat) : Effect s (.prn x) ((s.emit (s.reg a)).setPc n)
  /-- PUSH and CALL write one byte of memory. -/
  | store (i : Instr) (a v : Byte) (r : Vector Byte nreg) (n : Byte) :
      Effect s i { s.memWrite a v with regs := r, pc := n }
  /-- The others write registers and `pc` only. -/
  | move (i : Instr) (r : Vector Byte nreg) (n : Byte) : Effect s i { s with regs := r, pc := n }

theorem Completed.effect {s t : State} {i : Instr} (h : Completed s t i) : Effect s i t := by
  cases i with
  | hlt => obtain rfl := h; exact .halt
  | cmp x y => obtain ⟨a, b, -, -, -, rfl⟩ := h; exact .flags x y _ _ _
  | prn x => obtain ⟨a, ha, -, rfl⟩ := h; exact .output x a _ ha
  | push x => obtain ⟨a, -, -, rfl⟩ := h; exact .store _ _ _ _ _
  | call x => obtain ⟨a, -, -, rfl⟩ := h; exact .store _ _ _ _ _
  | pop x => obtain ⟨a, -, -, rfl⟩ := h; exact .move _ _ _
  | ret => obtain rfl := h; exact .move _ _ _
  | ldi x imm => obtain ⟨a, -, -, rfl⟩ := h; exact .move _ _ _
  | mul x y => obtain ⟨a, b, -, -, -, rfl⟩ := h; exact .move _ _ _
  | add x y => obtain ⟨a, b, -, -, -, rfl⟩ := h; exact .move _ _ _
  | jmp x => obtain ⟨a, -, -, rfl⟩ := h; exact .move _ _ _
  | jeq x => obtain ⟨a, -, ⟨-, -, rfl⟩ | ⟨-, -, rfl⟩⟩ := h <;> exact .move _ _ _
  | jne x => obtain ⟨a, -, ⟨-, -, rfl⟩ | ⟨-, -, rfl⟩⟩ := h <;> exact .move _ _ _

/-- What a step that has a next state did, with the writes sorted: UnknownOpcode, a precise fault of the decoded
instruction, or its completion. -/
theorem step_effect {s t : State} (h : step s = .next t) :
    s.status = .run ∧
      ((s.memRead s.pc ∉ opcodes ∧ t = s.raise (s.memRead s.pc) .unknownOpcode) ∨
        ∃ i rest, decode s.fetchBytes = .ok (i, rest) ∧ opcodeOf i = s.memRead s.pc ∧
          ((∃ e, PreciseTrap s.recordTrace e ∧ t = s.recordTrace.raise (s.memRead s.pc) e) ∨
            Effect s.recordTrace i t)) := by
  obtain ⟨hs, ⟨r, hd, ht⟩ | ⟨i, rest, hd, hop, he⟩⟩ := step_next h
  · exact ⟨hs, .inl ⟨not_mem_opcodes_of_decode_error hd, ht⟩⟩
  · refine ⟨hs, .inr ⟨i, rest, hd, hop, ?_⟩⟩
    obtain ⟨e, hp, ht⟩ | hc := exec_next he
    · exact .inl ⟨e, hp, hop ▸ ht⟩
    · exact .inr hc.effect

theorem step_params {s t : State} (h : step s = .next t) : t.params = s.params := by
  obtain ⟨-, ⟨-, rfl⟩ | ⟨i, rest, -, -, ⟨e, -, rfl⟩ | he⟩⟩ := step_effect h
  · rfl
  · simp
  · cases he <;> simp

/-- Settles O14: no write and no fault entry touches the parameters. -/
theorem parametersNeverChange : Obligations.ParametersNeverChange := fun _ _ h => step_params h

theorem step_out {s t : State} (h : step s = .next t) :
    t.out = s.out ∨ ∃ x rest, decode s.fetchBytes = .ok (.prn x, rest) ∧
      ∃ a : RegIdx, a.val = x.toNat ∧ t.out = s.out ++ [s.reg a] := by
  obtain ⟨-, ⟨-, rfl⟩ | ⟨i, rest, hd, -, ⟨e, -, rfl⟩ | he⟩⟩ := step_effect h
  · exact .inl rfl
  · exact .inl (by simp)
  · cases he with
    | output x a n ha => exact .inr ⟨x, rest, hd, a, ha, by simp⟩
    | halt => exact .inl (by simp)
    | flags => exact .inl (by simp)
    | store => exact .inl (by simp)
    | move => exact .inl (by simp)

/-- Settles O17: only a completed PRN writes `OUT`, and its operand is the byte at `pc + 1`. -/
theorem onlyPrnEmits : Obligations.OnlyPrnEmits := by
  intro s t h
  obtain hout | ⟨x, rest, hd, a, ha, hout⟩ := step_out h
  · exact .inl hout
  · exact .inr ⟨(opcodeOf_decode hd).symm, a, by rw [← prn_operand_of_decode hd, ha], hout⟩

theorem step_fl_of_ne_cmp {s t : State} (h : step s = .next t) (hop : s.memRead s.pc ≠ 0xA7) : t.fl = s.fl := by
  obtain ⟨-, ⟨-, rfl⟩ | ⟨i, rest, -, hi, ⟨e, -, rfl⟩ | he⟩⟩ := step_effect h
  · rfl
  · simp
  · cases he with
    | flags x y => exact absurd hi.symm hop
    | halt => simp
    | output => simp
    | store => simp
    | move => simp

/-! ### The invariant -/

theorem cmpFlags_oneHot (a b : Byte) : cmpFlags a b = 0x01 ∨ cmpFlags a b = 0x02 ∨ cmpFlags a b = 0x04 := by
  obtain ⟨-, h⟩ | ⟨-, h⟩ | ⟨-, h⟩ := cmpFlags_cases a b <;> simp [h]

theorem Inv.recordTrace {s : State} (h : Inv s) : Inv s.recordTrace := by
  unfold State.recordTrace
  split
  · next htrace => exact { h with traceOff := fun hoff => by simp_all }
  · exact h

/-- Fault entry keeps the invariant, if the trap fits the opcode byte it names. -/
theorem Inv.raise {s : State} {e : Trap} (h : Inv s)
    (he : (e = .unknownOpcode ∧ s.memRead s.pc ∉ opcodes) ∨ (PreciseTrap s e ∧ s.memRead s.pc ∈ opcodes)) :
    Inv (s.raise (s.memRead s.pc) e) where
  memory := h.memory
  flags := h.flags
  noRecord hne := absurd rfl hne
  haltedAtHlt hh := by cases hh
  traceOff := h.traceOff
  record _ := by
    refine ⟨rfl, rfl, ?_⟩
    obtain ⟨rfl, hop⟩ | ⟨⟨rfl, hm⟩ | ⟨b, rfl, hb⟩, hop⟩ := he
    · exact .inl ⟨rfl, rfl, hop⟩
    · exact .inr (.inr ⟨rfl, rfl, hop, hm⟩)
    · have hinfo : (BitVec.ofNat 9 b.toNat).toNat = b.toNat := by simp; omega
      exact .inr (.inl ⟨rfl, hinfo ▸ hb, by simp [trapInfo]; omega, hop⟩)

/-- Writes to registers, `pc`, `FL`, memory and `OUT` of a running core keep the invariant, if `FL` and memory stay
in their forms. -/
theorem Inv.write {s t : State} (h : Inv s) (hs : s.status = .run) (hmem : Memory.wf t.mem = true)
    (hfl : t.fl = 0x00 ∨ t.fl = 0x01 ∨ t.fl = 0x02 ∨ t.fl = 0x04)
    (ht : t = { s with regs := t.regs, pc := t.pc, fl := t.fl, mem := t.mem, out := t.out }) : Inv t := by
  have hrun : t.status = .run := by rw [ht]; exact hs
  refine { memory := hmem, flags := hfl, noRecord := fun _ => ?_, record := fun hf => ?_, haltedAtHlt := fun hh => ?_,
           traceOff := ?_ }
  · rw [ht]; exact h.noRecord (by simp [hs])
  · simp [hrun] at hf
  · simp [hrun] at hh
  · rw [ht]; exact h.traceOff

theorem Inv.effect {s t : State} {i : Instr} (h : Inv s) (hs : s.status = .run) (hop : opcodeOf i = s.memRead s.pc)
    (he : Effect s i t) : Inv t := by
  cases he with
  | halt => exact { h with noRecord := fun _ => h.noRecord (by simp [hs]), record := fun hf => (by cases hf),
                           haltedAtHlt := fun _ => hop.symm }
  | flags x y a b n => exact h.write hs h.memory (.inr (cmpFlags_oneHot a b)) rfl
  | output x a n ha => exact h.write hs h.memory h.flags rfl
  | store i a v r n => exact h.write hs (s.wf_memWrite h.memory a v) h.flags rfl
  | move i r n => exact h.write hs h.memory h.flags rfl

/-- Settles O3: fault entry and each sort of write keeps the invariant, and the trace entry before them does. -/
theorem stepKeepsInvariant : Obligations.StepKeepsInvariant := by
  intro s t hinv h
  obtain ⟨hs, ⟨hop, rfl⟩ | ⟨i, rest, -, hop, ⟨e, hp, rfl⟩ | he⟩⟩ := step_effect h
  · exact hinv.raise (.inl ⟨rfl, hop⟩)
  · have hmem : s.recordTrace.memRead s.recordTrace.pc ∈ opcodes := by
      simpa [← hop] using opcodeOf_mem_opcodes i
    simpa using hinv.recordTrace.raise (.inr ⟨hp, hmem⟩)
  · exact hinv.recordTrace.effect (by simpa using hs) (by simpa using hop) he

/-! ### Noninterference: the fields no other field depends on -/

/-- `b` answers the image under `g` of the next state that `a` answers. -/
def Carries (g : State → State) (a b : Answer) : Prop := ∀ t, a = .next t → b = .next (g t)

/-- Two instructions whose checks pass carry `g` if their writes do. -/
theorem carries_pure {g : State → State} {op : Byte} {s s' u u' : State} (h : u' = g u) :
    Carries g (complete op s (pure u)) (complete op s' (pure u')) := by
  rintro t ⟨⟩
  exact congrArg _ h

/-- Two instructions that begin with the same check carry `g` if their fault entries do, and what follows does. -/
theorem carries_bind {α : Type} {g : State → State} {op : Byte} {s s' : State} (r : Except Trap α)
    {k k' : α → Except Trap State} (hraise : ∀ e, s'.raise op e = g (s.raise op e))
    (hk : ∀ a, Carries g (complete op s (k a)) (complete op s' (k' a))) :
    Carries g (complete op s (r >>= k)) (complete op s' (r >>= k')) := by
  cases r with
  | ok a => exact hk a
  | error e => rintro t ⟨⟩; exact congrArg _ (hraise e)

/-- The state with `FL` and the observation by the trace port (R215) mapped: the fields that no check, register or
memory byte is computed from. -/
def State.mapUnread (φ : Byte → Byte) (τ : List TraceEntry → List TraceEntry) (b : Bool → Bool) (s : State) : State :=
  { s with fl := φ s.fl, trace := τ s.trace,
           params := { s.params with traceEnable := b s.params.traceEnable } }

theorem untraced_eq_mapUnread : State.untraced = State.mapUnread id (fun _ => []) (fun _ => false) := rfl

theorem setFl_eq_mapUnread (f : Byte) : (State.setFl · f) = State.mapUnread (fun _ => f) id id := rfl

section
variable (φ : Byte → Byte) (τ : List TraceEntry → List TraceEntry) (b : Bool → Bool)

theorem condJump_mapUnread (op : Byte) (taken : Bool) (x : Byte) (s : State) :
    Carries (State.mapUnread φ τ b) (condJump op taken x s) (condJump op taken x (s.mapUnread φ τ b)) := by
  refine carries_bind (s.operandR x) (fun _ => rfl) fun a => ?_
  cases taken with
  | true => exact carries_pure rfl
  | false => exact carries_bind (s.seqpc 2) (fun _ => rfl) fun _ => carries_pure rfl

/-- An instruction whose checks are those of its operands and of the sequential next pc carries the map if its writes
do. -/
theorem complete_mapUnread {α : Type} {op : Byte} {s : State} (r : Except Trap α) (w : Nat) {f f' : α → Byte → State}
    (h : ∀ a n, f' a n = (f a n).mapUnread φ τ b) :
    Carries (State.mapUnread φ τ b) (complete op s (r >>= fun a => s.seqpc w >>= fun n => pure (f a n)))
      (complete op (s.mapUnread φ τ b) (r >>= fun a => s.seqpc w >>= fun n => pure (f' a n))) :=
  carries_bind r (fun _ => rfl) fun a => carries_bind (s.seqpc w) (fun _ => rfl) fun n => carries_pure (h a n)

/-- An instruction maps states that differ only in `FL` and the trace to such states: CMP if its results keep the map,
JEQ and JNE if it keeps bit `E`. -/
theorem exec_mapUnread {i : Instr} {s : State} (hcmp : opcodeOf i = 0xA7 → ∀ a b, φ (cmpFlags a b) = cmpFlags a b)
    (hjump : opcodeOf i = 0x55 ∨ opcodeOf i = 0x56 → flagE (φ s.fl) = flagE s.fl) :
    Carries (State.mapUnread φ τ b) (exec i s) (exec i (s.mapUnread φ τ b)) := by
  cases i with
  | hlt => rintro t ⟨⟩; rfl
  | ret => rintro t ⟨⟩; rfl
  | ldi x imm => exact complete_mapUnread φ τ b (s.operandsRI x imm) 3 fun _ _ => rfl
  | mul x y => exact complete_mapUnread φ τ b (s.operandsRR x y) 3 fun _ _ => rfl
  | add x y => exact complete_mapUnread φ τ b (s.operandsRR x y) 3 fun _ _ => rfl
  | cmp x y =>
    refine complete_mapUnread φ τ b (s.operandsRR x y) 3 fun r n => ?_
    have hφ := hcmp rfl (s.reg r.1) (s.reg r.2)
    exact congrArg (fun v => (((s.mapUnread φ τ b).setFl v).setPc n)) hφ.symm
  | prn x => exact complete_mapUnread φ τ b (s.operandR x) 2 fun _ _ => rfl
  | push x => exact complete_mapUnread φ τ b (s.operandR x) 2 fun _ _ => rfl
  | pop x => exact complete_mapUnread φ τ b (s.operandR x) 2 fun _ _ => rfl
  | call x => exact complete_mapUnread φ τ b (s.operandR x) 2 fun _ _ => rfl
  | jmp x => exact carries_bind (s.operandR x) (fun _ => rfl) fun _ => carries_pure rfl
  | jeq x =>
    have he := hjump (.inl rfl)
    change Carries _ _ (condJump _ (flagE (φ s.fl)) x _)
    rw [he]
    exact condJump_mapUnread φ τ b _ _ x s
  | jne x =>
    have he := hjump (.inr rfl)
    change Carries _ _ (condJump _ (!flagE (φ s.fl)) x _)
    rw [he]
    exact condJump_mapUnread φ τ b _ _ x s

end

/-- Two steps at the same bytes carry `g` if the entry of UnknownOpcode and the instruction at those bytes do. -/
theorem step_carries {g : State → State} {s s' : State} (hstatus : s'.status = s.status)
    (hbytes : s'.fetchBytes = s.fetchBytes)
    (hraise : s'.raise (s.memRead s.pc) .unknownOpcode = g (s.raise (s.memRead s.pc) .unknownOpcode))
    (hexec : ∀ i, opcodeOf i = s.memRead s.pc → Carries g (exec i s.recordTrace) (exec i s'.recordTrace)) :
    Carries g (step s) (step s') := by
  intro t h
  have hop : s'.memRead s'.pc = s.memRead s.pc := by
    simp only [State.fetchBytes, List.cons.injEq] at hbytes
    exact hbytes.1
  obtain ⟨hs, ⟨r, hd, rfl⟩ | ⟨i, rest, hd, hi, he⟩⟩ := step_next h
  · rw [step_of_decode_error (hstatus.trans hs) (hbytes ▸ hd), hop, hraise]
  · rw [step_of_decode_ok (hstatus.trans hs) (hbytes ▸ hd)]
    exact hexec i hi t he

theorem recordTrace_untraced (s : State) : s.recordTrace.untraced = s.untraced.recordTrace := by
  simp [State.untraced, State.recordTrace, apply_ite]

/-- The step of the core without its trace port is its step, without what the trace port observes (R215). -/
theorem step_untraced (s : State) : Carries State.untraced (step s) (step s.untraced) := by
  refine step_carries rfl rfl rfl fun i _ => ?_
  rw [← recordTrace_untraced, untraced_eq_mapUnread]
  exact exec_mapUnread _ _ _ (fun _ _ _ => rfl) (fun _ => rfl)

theorem step_of_untraced_eq {s s' t : State} (h : s.untraced = s'.untraced) (ht : step s = .next t) :
    ∃ t', step s' = .next t' ∧ t.untraced = t'.untraced := by
  have hstatus : s.untraced.status = s'.untraced.status := by rw [h]
  obtain ⟨t', ht'⟩ := step_answers_of_run (s := s') (hstatus.symm.trans (step_next ht).1)
  have hu := step_untraced s t ht
  rw [h, step_untraced s' t' ht', Host.Outcome.next.injEq] at hu
  exact ⟨t', ht', hu.symm⟩

/-- Settles O20: both states step as the state without its trace port does. -/
theorem traceDoesNotInfluenceTheCore : Obligations.TraceDoesNotInfluenceTheCore := by
  refine fun s s' h => ⟨fun t ht => step_of_untraced_eq h ht, fun hno t' ht' => ?_⟩
  obtain ⟨t, ht, -⟩ := step_of_untraced_eq h.symm ht'
  exact hno t ht

/-! ### The flags -/

theorem recordTrace_setFl (s : State) (f : Byte) : (s.setFl f).recordTrace = s.recordTrace.setFl f := by
  simp only [State.recordTrace, State.setFl_params, apply_ite (State.setFl · f)]
  rfl

/-- What becomes of `t` when `FL` was `f` before a step at the byte `op`: `FL` keeps that value, unless a CMP
completed. -/
def State.withOldFl (op f : Byte) (t : State) : State :=
  { t with fl := if op = 0xA7 ∧ t.status = .run then t.fl else f }

theorem withOldFl_of_ne_cmp {op : Byte} (h : op ≠ 0xA7) (f : Byte) : State.withOldFl op f = (State.setFl · f) :=
  funext fun t => congrArg t.setFl (if_neg fun hc => h hc.1)

theorem withOldFl_cmp_of_run {t : State} (h : t.status = .run) (f : Byte) : t.withOldFl 0xA7 f = t :=
  congrArg t.setFl (if_pos ⟨rfl, h⟩)

theorem withOldFl_raise (s : State) (op opc : Byte) (e : Trap) (f : Byte) :
    (s.raise op e).withOldFl opc f = (s.setFl f).raise op e :=
  congrArg (s.raise op e).setFl (if_neg fun hc => by cases hc.2)

/-- A CMP overwrites any flags value it finds, unless it faults. -/
theorem execCmp_setFl {s : State} (hs : s.status = .run) (x y f : Byte) :
    Carries (State.withOldFl 0xA7 f) (execCmp x y s) (execCmp x y (s.setFl f)) := by
  have hraise (e : Trap) := (withOldFl_raise s 0xA7 0xA7 e f).symm
  refine carries_bind (s.operandsRR x y) hraise fun r => carries_bind (s.seqpc 3) hraise fun n => carries_pure ?_
  exact (withOldFl_cmp_of_run (t := (s.setFl (alu .cmp (s.reg r.1) (s.reg r.2))).setPc n) hs f).symm

/-- The step from another flags value that agrees in bit `E`, or at no JEQ and no JNE byte. -/
theorem step_setFl {s : State} {f : Byte} (hs : s.status = .run)
    (hE : s.memRead s.pc = 0x55 ∨ s.memRead s.pc = 0x56 → flagE f = flagE s.fl) :
    Carries (State.withOldFl (s.memRead s.pc) f) (step s) (step (s.setFl f)) := by
  refine step_carries rfl rfl (withOldFl_raise s _ _ _ f).symm fun i hi => ?_
  rw [recordTrace_setFl]
  by_cases hcmp : s.memRead s.pc = 0xA7
  · obtain ⟨x, y, rfl⟩ := opcodeOf_eq_cmp.mp (hi.trans hcmp)
    exact hcmp ▸ execCmp_setFl (by simpa using hs) x y f
  · rw [withOldFl_of_ne_cmp hcmp, setFl_eq_mapUnread]
    exact exec_mapUnread _ _ _ (fun h => absurd (hi ▸ h) hcmp) (fun h => by simpa using hE (hi ▸ h))

/-- Settles O16: JEQ and JNE see `FL` through `flagE` alone, and every other instruction runs without it. -/
theorem flagsReadOnlyThroughBitE : Obligations.FlagsReadOnlyThroughBitE := by
  intro s t f h hbit
  refine step_setFl (step_next h).1 (fun hjump => ?_) t h
  obtain hE | ⟨hjeq, hjne⟩ := hbit
  · exact hE
  · exact absurd hjump (not_or.mpr ⟨hjeq, hjne⟩)

/-- A step at a JEQ or JNE byte keeps registers and memory. -/
theorem step_condJump_frame {s t : State} (h : step s = .next t) (hop : s.memRead s.pc = 0x55 ∨ s.memRead s.pc = 0x56) :
    t.regs = s.regs ∧ t.mem = s.mem := by
  obtain ⟨-, ⟨r, -, rfl⟩ | ⟨i, rest, -, hi, he⟩⟩ := step_next h
  · exact ⟨rfl, rfl⟩
  obtain ⟨e, -, rfl⟩ | hc := exec_next he
  · simp
  obtain hop | hop := hop
  · obtain ⟨x, rfl⟩ := opcodeOf_eq_jeq.mp (hi.trans hop)
    obtain ⟨a, -, ⟨-, -, rfl⟩ | ⟨-, -, rfl⟩⟩ := hc <;> simp
  · obtain ⟨x, rfl⟩ := opcodeOf_eq_jne.mp (hi.trans hop)
    obtain ⟨a, -, ⟨-, -, rfl⟩ | ⟨-, -, rfl⟩⟩ := hc <;> simp

theorem step_cmp_fl {s t : State} (h : step s = .next t) (hop : s.memRead s.pc = 0xA7) :
    t.status = .fault ∨ t.fl = 0x01 ∨ t.fl = 0x02 ∨ t.fl = 0x04 := by
  obtain ⟨-, ⟨r, -, rfl⟩ | ⟨i, rest, -, hi, he⟩⟩ := step_next h
  · exact .inl rfl
  obtain ⟨x, y, rfl⟩ := opcodeOf_eq_cmp.mp (hi.trans hop)
  obtain ⟨e, -, rfl⟩ | ⟨a, b, -, -, -, rfl⟩ := exec_next he
  · exact .inl rfl
  · exact .inr (cmpFlags_oneHot _ _)

/-- With any other flags value, a step leaves the same registers and memory. -/
theorem step_setFl_regs_mem {s t : State} (h : step s = .next t) (f : Byte) :
    ∃ t', step (s.setFl f) = .next t' ∧ t'.regs = t.regs ∧ t'.mem = t.mem := by
  have hs := (step_next h).1
  by_cases hjump : s.memRead s.pc = 0x55 ∨ s.memRead s.pc = 0x56
  · obtain ⟨t', ht'⟩ := step_answers_of_run (s := s.setFl f) hs
    obtain ⟨hregs, hmem⟩ := step_condJump_frame h hjump
    obtain ⟨hregs', hmem'⟩ := step_condJump_frame ht' hjump
    exact ⟨t', ht', hregs'.trans hregs.symm, hmem'.trans hmem.symm⟩
  · exact ⟨_, step_setFl hs (fun hj => absurd hj hjump) t h, rfl, rfl⟩

/-- Settles O15: the writes of a step sorted by field, and the step from another flags value. -/
theorem onlyCmpWritesFlags : Obligations.OnlyCmpWritesFlags := fun _ _ h =>
  ⟨step_fl_of_ne_cmp h, step_cmp_fl h, step_setFl_regs_mem h⟩

/-! ### The state is its listed fields -/

theorem Memory.wfFrom_cons_iff {lo k : Nat} {v : Byte} {m : List Host.Cell} :
    Memory.wfFrom lo ((k, v) :: m) = true ↔
      lo ≤ k ∧ k < memSize ∧ v ≠ unlistedByte ∧ Memory.wfFrom (k + 1) m = true := by
  simp [Memory.wfFrom, and_assoc]

/-- The first cell of a canonical memory stands at the lowest address that reads other than unlisted, so a canonical
memory that reads alike has no first cell above it. -/
theorem Memory.head_le_of_read_eq {lo k j : Nat} {v w : Byte} {m n : List Host.Cell}
    (hm : Memory.wfFrom lo ((k, v) :: m) = true) (hn : Memory.wfFrom lo ((j, w) :: n) = true)
    (h : ∀ a < memSize, Memory.read ((k, v) :: m) a = Memory.read ((j, w) :: n) a) : j ≤ k := by
  obtain ⟨-, hk, hv, -⟩ := Memory.wfFrom_cons_iff.mp hm
  obtain ⟨-, hj, hw, hn'⟩ := Memory.wfFrom_cons_iff.mp hn
  by_contra hlt
  have hn : Memory.wfFrom j ((j, w) :: n) = true := Memory.wfFrom_cons_iff.mpr ⟨le_rfl, hj, hw, hn'⟩
  have hread := h k hk
  rw [Memory.read_below hn (by omega)] at hread
  exact hv (by simpa [Memory.read] using hread)

/-- Two canonical memories that read alike at every address are one list. -/
theorem Memory.eq_of_read_eq {lo : Nat} {m n : List Host.Cell} (hm : Memory.wfFrom lo m = true)
    (hn : Memory.wfFrom lo n = true) (h : ∀ a < memSize, Memory.read m a = Memory.read n a) : m = n := by
  induction m generalizing lo n with
  | nil =>
    cases n with
    | nil => rfl
    | cons c n =>
      obtain ⟨-, hk, hv, -⟩ := Memory.wfFrom_cons_iff.mp hn
      exact absurd (by simpa [Memory.read] using (h c.1 hk).symm) hv
  | cons c m ih =>
    obtain ⟨k, v⟩ := c
    obtain ⟨-, hk, hv, hm'⟩ := Memory.wfFrom_cons_iff.mp hm
    cases n with
    | nil => exact absurd (by simpa [Memory.read] using h k hk) hv
    | cons d n =>
      obtain ⟨j, w⟩ := d
      obtain ⟨-, -, -, hn'⟩ := Memory.wfFrom_cons_iff.mp hn
      obtain rfl : k = j := Nat.le_antisymm (Memory.head_le_of_read_eq hn hm fun a ha => (h a ha).symm)
        (Memory.head_le_of_read_eq hm hn h)
      obtain rfl : v = w := by simpa [Memory.read] using h k hk
      have htail : ∀ a < memSize, Memory.read m a = Memory.read n a := by
        intro a ha
        by_cases hak : a ≤ k
        · rw [Memory.read_below hm' (by omega), Memory.read_below hn' (by omega)]
        · simpa [Memory.read, show k ≠ a by omega] using h a ha
      rw [ih hm' hn' htail]

theorem State.regs_eq_of_reg_eq {s t : State} (h : ∀ r : RegIdx, s.reg r = t.reg r) : s.regs = t.regs :=
  Vector.ext fun i hi => h ⟨i, hi⟩

theorem State.mem_eq_of_memRead_eq {s t : State} (hs : Memory.wf s.mem = true) (ht : Memory.wf t.mem = true)
    (h : ∀ a : Byte, s.memRead a = t.memRead a) : s.mem = t.mem := by
  refine Memory.eq_of_read_eq hs ht fun a ha => ?_
  have hread := h (BitVec.ofNat 8 a)
  rwa [State.memRead, State.memRead, BitVec.toNat_ofNat, Nat.mod_eq_of_lt ha] at hread

/-- Settles O48: equal register reads make equal register files, equal byte reads equal canonical memories, and the
structure has no other field. -/
theorem stateIsTheListedFieldsAlone : Obligations.StateIsTheListedFieldsAlone := by
  intro s t hs ht hreg hpc hfl hread hstatus hfcause hfpc hfop hfinfo hout htrace hparams
  have hregs := State.regs_eq_of_reg_eq hreg
  have hmem := State.mem_eq_of_memRead_eq hs ht hread
  cases s
  cases t
  simp only at *
  simp only [State.mk.injEq]
  exact ⟨hregs, hpc, hfl, hmem, hstatus, hfcause, hfpc, hfop, hfinfo, hout, htrace, hparams⟩

/-! ### Reset -/

theorem resetWith_reg_general (p : Params) : ∀ r : RegIdx, r ≠ spIndex → (State.resetWith p).reg r = 0 := by
  change ∀ r : RegIdx, r ≠ spIndex → (#v[0, 0, 0, 0, 0, 0, 0, spReset] : Vector Byte nreg)[r] = 0
  decide

/-- Settles O1: each field of the reset state is what R230 writes. -/
theorem resetSetsEveryField : Obligations.ResetSetsEveryField := by
  refine ⟨?_, defaultParams, rfl⟩
  rintro p s rfl
  exact ⟨resetWith_reg_general p, rfl, rfl, rfl, fun _ => rfl, rfl, rfl, rfl, rfl, rfl, rfl, rfl⟩

end Sys2Proof.Machine
end

section
/-! Memory (spec/20_memory.md): the canonical form is unique, and the one cell a step can write. -/

namespace Sys2Proof.Machine

/-- Settles O5: the lists agree cell by cell, since the first cell of each is the lowest address that reads non-zero. -/
theorem canonicalMemoryIsUnique : Obligations.CanonicalMemoryIsUnique := fun _ _ hm hn h =>
  Memory.eq_of_read_eq hm hn h

@[simp] theorem recordTrace_pushAddr (s : State) : s.recordTrace.pushAddr = s.pushAddr := by
  simp [pushAddr_eq]

/-- `t` has the memory of `s`, but for one byte stored at the decremented `SP` if `op` is PUSH or CALL (R52). -/
def PushesAtMost (op : Byte) (s t : State) : Prop :=
  t.mem = s.mem ∨ ((op = 0x45 ∨ op = 0x50) ∧ ∃ v, t.mem = (s.memWrite s.pushAddr v).mem)

/-- Storing at most the pushed byte changes no other address, whatever the form of the memory. -/
theorem PushesAtMost.eq_pushAddr_of_memRead_ne {op a : Byte} {s t : State} (h : PushesAtMost op s t)
    (ha : t.memRead a ≠ s.memRead a) : (op = 0x45 ∨ op = 0x50) ∧ a = s.pushAddr := by
  obtain hmem | ⟨hop, v, hmem⟩ := h
  · exact absurd (congrArg (Memory.read · a.toNat) hmem) ha
  · refine ⟨hop, ?_⟩
    by_contra hne
    exact ha ((congrArg (Memory.read · a.toNat) hmem).trans (s.memRead_memWrite_other _ v hne))

theorem Completed.pushesAtMost {s t : State} {i : Instr} (h : Completed s t i) : PushesAtMost (opcodeOf i) s t := by
  cases i with
  | push x => obtain ⟨a, -, -, rfl⟩ := h; exact .inr ⟨.inl rfl, _, rfl⟩
  | call x => obtain ⟨a, -, -, rfl⟩ := h; exact .inr ⟨.inr rfl, _, rfl⟩
  | hlt => obtain rfl := h; exact .inl rfl
  | ret => obtain rfl := h; exact .inl rfl
  | ldi x imm => obtain ⟨a, -, -, rfl⟩ := h; exact .inl rfl
  | prn x => obtain ⟨a, -, -, rfl⟩ := h; exact .inl rfl
  | pop x => obtain ⟨a, -, -, rfl⟩ := h; exact .inl rfl
  | jmp x => obtain ⟨a, -, -, rfl⟩ := h; exact .inl rfl
  | mul x y => obtain ⟨a, b, -, -, -, rfl⟩ := h; exact .inl rfl
  | add x y => obtain ⟨a, b, -, -, -, rfl⟩ := h; exact .inl rfl
  | cmp x y => obtain ⟨a, b, -, -, -, rfl⟩ := h; exact .inl rfl
  | jeq x => obtain ⟨a, -, ⟨-, -, rfl⟩ | ⟨-, -, rfl⟩⟩ := h <;> exact .inl rfl
  | jne x => obtain ⟨a, -, ⟨-, -, rfl⟩ | ⟨-, -, rfl⟩⟩ := h <;> exact .inl rfl

/-- A fault entry keeps memory, and so does the trace entry. -/
theorem step_pushesAtMost {s t : State} (h : step s = .next t) : PushesAtMost (s.memRead s.pc) s t := by
  obtain ⟨-, ⟨r, -, rfl⟩ | ⟨i, rest, -, hi, he⟩⟩ := step_next h
  · exact .inl rfl
  obtain ⟨e, -, rfl⟩ | hc := exec_next he
  · exact .inl (by simp)
  · simpa [PushesAtMost, hi] using hc.pushesAtMost

/-- Settles O18: a step stores at most one byte, at the decremented `SP`. -/
theorem onlyPushAndCallWriteMemory : Obligations.OnlyPushAndCallWriteMemory := fun _ _ _ h ha =>
  (step_pushesAtMost h).eq_pushAddr_of_memRead_ne ha

end Sys2Proof.Machine
end

section
/-! Encoding (spec/30_encoding.md): the opcode map read both ways, and what no operand byte can change. -/

namespace Sys2Proof.Machine

/-! ### Encode, then decode -/

/-- Each opcode byte selects its own row, whose format takes exactly the operand bytes that the encoder wrote. -/
theorem decode_encode_append (i : Instr) (rest : List Byte) : decode (encode i ++ rest) = .ok (i, rest) := by
  cases i <;> rfl

/-- Settles O21: by cases on the instruction, with the operand bytes and what follows them left open. -/
theorem decodeOfEncode : Obligations.DecodeOfEncode := decode_encode_append

/-! ### Decode, then encode -/

/-- The instructions that a row of the opcode map makes are encoded as its opcode byte and the operand bytes of its
format (R81, R87). -/
def RowEncodes (op : Byte) : Shape → Prop
  | .n i => encode i = [op]
  | .r mk => ∀ b1, encode (mk b1) = [op, b1]
  | .rr mk => ∀ b1 b2, encode (mk b1 b2) = [op, b1, b2]

theorem rowEncodes_of_mem_opcodeMap : ∀ row ∈ opcodeMap, RowEncodes row.1 row.2 := by
  simp [opcodeMap, RowEncodes, encode, opcodeOf, operandsOf]

theorem rowEncodes_of_shapeOf {op : Byte} {sh : Shape} (h : shapeOf op = some sh) : RowEncodes op sh :=
  rowEncodes_of_mem_opcodeMap _ (shapeOf_mem h)

theorem eq_encode_append_of_decode {bs rest : List Byte} {i : Instr} (h : decode bs = .ok (i, rest)) :
    bs = encode i ++ rest := by
  cases bs with
  | nil => cases h
  | cons op bs =>
    cases hs : shapeOf op with
    | none => simp [decode, hs] at h
    | some sh =>
      have hrow := rowEncodes_of_shapeOf hs
      match sh, bs with
      | .n j, bs =>
        obtain ⟨rfl, rfl⟩ : j = i ∧ bs = rest := by simpa [decode, hs] using h
        exact congrArg (· ++ bs) hrow.symm
      | .r mk, b1 :: bs =>
        obtain ⟨rfl, rfl⟩ : mk b1 = i ∧ bs = rest := by simpa [decode, hs] using h
        exact congrArg (· ++ bs) (hrow b1).symm
      | .rr mk, b1 :: b2 :: bs =>
        obtain ⟨rfl, rfl⟩ : mk b1 b2 = i ∧ bs = rest := by simpa [decode, hs] using h
        exact congrArg (· ++ bs) (hrow b1 b2).symm
      | .r mk, [] => simp [decode, hs] at h
      | .rr mk, [] => simp [decode, hs] at h
      | .rr mk, [b1] => simp [decode, hs] at h

/-- Settles O22: the row that decoded the bytes makes an instruction that is encoded as the bytes it took. -/
theorem encodeOfDecode : Obligations.EncodeOfDecode := fun _ _ _ => eq_encode_append_of_decode

/-! ### Every byte: a row of the opcode map, or UnknownOpcode -/

theorem shapeOf_eq_none_iff {op : Byte} : shapeOf op = none ↔ op ∉ opcodes := by
  simp [shapeOf, opcodeMap, opcodes, List.lookup_eq_none_iff]

theorem decode_of_not_mem_opcodes {op : Byte} (h : op ∉ opcodes) (rest : List Byte) :
    decode (op :: rest) = .error (.unknownOpcode op) := by
  simp [decode, shapeOf_eq_none_iff.mpr h]

/-- Three bytes are enough for each format (R5 `ILEN`), so a listed opcode byte decodes whatever two bytes follow it. -/
theorem decode_of_mem_opcodes {op : Byte} (h : op ∈ opcodes) (b1 b2 : Byte) (rest : List Byte) :
    ∃ i rest', decode (op :: b1 :: b2 :: rest) = .ok (i, rest') := by
  cases hs : shapeOf op with
  | none => exact absurd h (shapeOf_eq_none_iff.mp hs)
  | some sh =>
    cases sh with
    | n i => exact ⟨i, b1 :: b2 :: rest, by simp [decode, hs]⟩
    | r mk => exact ⟨mk b1, b2 :: rest, by simp [decode, hs]⟩
    | rr mk => exact ⟨mk b1 b2, rest, by simp [decode, hs]⟩

/-- Settles O24: the thirteen rows are the thirteen encodings read back, and no other byte has a row. -/
theorem decodeFollowsTheOpcodeMap : Obligations.DecodeFollowsTheOpcodeMap := fun b1 b2 rest =>
  ⟨decode_encode_append .hlt rest, decode_encode_append (.ldi b1 b2) rest, decode_encode_append (.prn b1) rest,
    decode_encode_append (.mul b1 b2) rest, decode_encode_append (.add b1 b2) rest,
    decode_encode_append (.push b1) rest, decode_encode_append (.pop b1) rest, decode_encode_append (.call b1) rest,
    decode_encode_append .ret rest, decode_encode_append (.cmp b1 b2) rest, decode_encode_append (.jmp b1) rest,
    decode_encode_append (.jeq b1) rest, decode_encode_append (.jne b1) rest,
    fun _ h => decode_of_not_mem_opcodes h rest⟩

theorem decodeTableWord_of_tableBytes {nbits w : Nat} {i : Instr} (rest : List Byte)
    (h : tableBytes nbits w = encode i ++ rest) : decodeTableWord nbits w = some i := by
  simp [decodeTableWord, h, decode_encode_append]

/-- Settles O25: the bytes of each word are the instruction's encoding, filled up to three bytes with zeros. -/
theorem sampleWordsDecode : Obligations.SampleWordsDecode :=
  ⟨decodeTableWord_of_tableBytes [0, 0] rfl, decodeTableWord_of_tableBytes [] rfl,
    decodeTableWord_of_tableBytes [] rfl, decodeTableWord_of_tableBytes [0] rfl,
    decodeTableWord_of_tableBytes [0] rfl⟩

/-! ### An operand out of range is a fault of the decoded instruction -/

theorem namesRegister_of_val_eq {x : Byte} {a : RegIdx} (h : a.val = x.toNat) : namesRegister x = true :=
  decide_eq_true (h ▸ a.isLt)

theorem namesRegister_and_of_val_eq {x y : Byte} {a b : RegIdx} (ha : a.val = x.toNat) (hb : b.val = y.toNat) :
    (namesRegister x && namesRegister y) = true :=
  Bool.and_eq_true_iff.mpr ⟨namesRegister_of_val_eq ha, namesRegister_of_val_eq hb⟩

/-- An instruction completes only if every register operand names a register. -/
theorem Completed.wellFormed {s t : State} {i : Instr} (h : Completed s t i) : i.wellFormed = true := by
  cases i with
  | hlt => rfl
  | ret => rfl
  | ldi x imm => obtain ⟨a, ha, -⟩ := h; exact namesRegister_of_val_eq ha
  | prn x => obtain ⟨a, ha, -⟩ := h; exact namesRegister_of_val_eq ha
  | push x => obtain ⟨a, ha, -⟩ := h; exact namesRegister_of_val_eq ha
  | pop x => obtain ⟨a, ha, -⟩ := h; exact namesRegister_of_val_eq ha
  | call x => obtain ⟨a, ha, -⟩ := h; exact namesRegister_of_val_eq ha
  | jmp x => obtain ⟨a, ha, -⟩ := h; exact namesRegister_of_val_eq ha
  | jeq x => obtain ⟨a, ha, -⟩ := h; exact namesRegister_of_val_eq ha
  | jne x => obtain ⟨a, ha, -⟩ := h; exact namesRegister_of_val_eq ha
  | mul x y => obtain ⟨a, b, ha, hb, -⟩ := h; exact namesRegister_and_of_val_eq ha hb
  | add x y => obtain ⟨a, b, ha, hb, -⟩ := h; exact namesRegister_and_of_val_eq ha hb
  | cmp x y => obtain ⟨a, b, ha, hb, -⟩ := h; exact namesRegister_and_of_val_eq ha hb

/-- R89: an instruction with an operand out of range takes a fault, and the fault names its own opcode byte. -/
theorem exec_faults_of_not_wellFormed {i : Instr} (h : i.wellFormed = false) (s : State) :
    ∃ t, exec i s = .next t ∧ t.status = .fault ∧ t.fop = opcodeOf i := by
  obtain ⟨t, ht⟩ := exec_answers i s
  obtain ⟨e, -, rfl⟩ | hc := exec_next ht
  · exact ⟨_, ht, rfl, rfl⟩
  · simp [hc.wellFormed] at h

/-- Settles O23: a byte with a row decodes by that row whatever follows it, and a byte without one never does. -/
theorem everyByteDecodesOrIsUnknown : Obligations.EveryByteDecodesOrIsUnknown := by
  refine fun op => ⟨fun hop b1 b2 rest => ?_, decode_of_not_mem_opcodes⟩
  obtain ⟨i, rest', hd⟩ := decode_of_mem_opcodes hop b1 b2 rest
  obtain rfl := opcodeOf_decode hd
  exact ⟨i, rest', hd, rfl, exec_faults_of_not_wellFormed⟩

/-! ### Progress -/

/-- Settles O9: the decoded instruction answers a next state, a fault included, and a byte that is no opcode takes
UnknownOpcode. -/
theorem runningCoreAlwaysSteps : Obligations.RunningCoreAlwaysSteps := fun _ => step_answers_of_run

end Sys2Proof.Machine
end

section
/-! Dispatch (spec/40_dispatch.md): what a step runs, the order of the checks, HLT and the stopped core. -/

namespace Sys2Proof.Machine

/-! ### What a step runs -/

theorem byteAddr_eq (s : State) (k : Nat) : s.byteAddr k = s.pc + BitVec.ofNat 8 k := u8_add s.pc k

theorem fetchBytes_eq (s : State) :
    s.fetchBytes = [s.memRead s.pc, s.memRead (s.pc + 1), s.memRead (s.pc + 2)] := by
  simp [State.fetchBytes, byteAddr_eq]

theorem traceEntry_eq (s : State) :
    s.traceEntry = ⟨s.pc, s.memRead s.pc, s.memRead (s.pc + 1), s.memRead (s.pc + 2), s.regs⟩ := by
  simp [State.traceEntry, byteAddr_eq]

/-- Settles O6: the step decodes the fetched bytes and executes after `recordTrace`, whose entry holds those bytes. -/
theorem stepRunsDecodedInstruction : Obligations.StepRunsDecodedInstruction := by
  intro s i rest hs hd
  rw [step_of_decode_ok hs ((fetchBytes_eq s).symm ▸ hd), State.recordTrace, traceEntry_eq]

theorem step_of_not_mem_opcodes {s : State} (hs : s.status = .run) (hop : s.memRead s.pc ∉ opcodes) :
    step s = .next (s.faultedWith (s.memRead s.pc) 1 0) :=
  step_of_decode_error hs (decode_of_not_mem_opcodes hop _)

/-- Settles O7: a byte without a row does not decode, and the step takes UnknownOpcode before the trace entry. -/
theorem unknownOpcodeStopsTheCore : Obligations.UnknownOpcodeStopsTheCore := fun _ => step_of_not_mem_opcodes

theorem step_ne_next_of_not_run {s : State} (hs : s.status ≠ .run) (t : State) : step s ≠ .next t :=
  fun h => hs (step_next h).1

/-- Settles O8: a state that has a next state is running. -/
theorem stoppedCoreHasNoStep : Obligations.StoppedCoreHasNoStep := fun _ t hs =>
  step_ne_next_of_not_run (by rcases hs with hs | hs <;> simp [hs]) t

/-! ### The first failing check (R117) -/

/-- `r` is the result of the checks `cs` in order: the fault of the first that fails, and when none fails a value that
meets `Q`. -/
def Reports {α : Type} (cs : List Check) (Q : α → Prop) (r : Except Trap α) : Prop :=
  match cs.find? (·.fails) with
  | some c => ∃ e, r = .error e ∧ trapCode e = c.code ∧ trapInfo e = c.info
  | none => ∃ a, r = .ok a ∧ Q a

section
variable {α β : Type} {cs ds : List Check} {P : α → Prop} {Q : β → Prop}

theorem Reports.pure {a : α} (h : P a) : Reports [] P (pure a) := ⟨a, rfl, h⟩

theorem Reports.error {c : Check} {e : Trap} (hc : c.fails = true) (hcode : trapCode e = c.code)
    (hinfo : trapInfo e = c.info) : Reports [c] P (.error e) := by
  simp [Reports, hc, hcode, hinfo]

theorem Reports.ok {c : Check} {a : α} (hc : c.fails = false) (h : P a) : Reports [c] P (.ok a) := by
  simp [Reports, hc, h]

theorem Reports.imp {r : Except Trap α} {P' : α → Prop} (h : Reports cs P r) (hP : ∀ a, P a → P' a) :
    Reports cs P' r := by
  unfold Reports at h ⊢
  split at h
  · exact h
  · obtain ⟨a, e, ha⟩ := h
    exact ⟨a, e, hP a ha⟩

/-- The checks of a sequence: a later check is reached only when every earlier one has passed. -/
theorem Reports.bind {r : Except Trap α} {k : α → Except Trap β} (hr : Reports cs P r)
    (hk : ∀ a, P a → Reports ds Q (k a)) : Reports (cs ++ ds) Q (r >>= k) := by
  unfold Reports at hr ⊢
  rw [List.find?_append]
  cases hc : cs.find? (·.fails) with
  | some c =>
    simp only [hc] at hr
    obtain ⟨e, rfl, he⟩ := hr
    exact ⟨e, rfl, he⟩
  | none =>
    simp only [hc] at hr
    obtain ⟨a, rfl, ha⟩ := hr
    exact hk a ha

theorem Reports.complete_of_find?_eq_some {r : Except Trap State} {Q : State → Prop} {c : Check}
    (h : Reports cs Q r) (hc : cs.find? (·.fails) = some c) (op : Byte) (s : State) :
    complete op s r = .next (s.faultedWith op c.code c.info) := by
  simp only [Reports, hc] at h
  obtain ⟨e, rfl, hcode, hinfo⟩ := h
  rw [complete_error, raise_eq_faultedWith, hcode, hinfo]

theorem Reports.complete_of_find?_eq_none {r : Except Trap State} {Q : State → Prop}
    (h : Reports cs Q r) (hc : cs.find? (·.fails) = none) (op : Byte) (s : State) :
    ∃ t, complete op s r = .next t ∧ Q t := by
  simp only [Reports, hc] at h
  obtain ⟨t, rfl, ht⟩ := h
  exact ⟨t, rfl, ht⟩

end

section
variable {s : State}

theorem boundCheck_passes {k : Nat} (h : s.InBounds k) : (boundCheck s k).fails = false := by
  rcases h with h | h <;> simp [boundCheck, h]

theorem boundCheck_fails {k : Nat} (h : s.PastTop k) : (boundCheck s k).fails = true := by
  simp [boundCheck, h]

theorem PreciseTrap.boundsFault_of_code {e : Trap} (h : PreciseTrap s e) (hcode : trapCode e = 3) :
    e = .boundsFault 256 ∧ s.params.boundsMode = .fault := by
  obtain h | ⟨b, rfl, -⟩ := h
  · exact h
  · simp [trapCode] at hcode

/-- A bound check reached in order records 256 (R116), since the address one below it was within bounds. -/
theorem boundsFault_reports {α : Type} {P : α → Prop} {k : Nat} (hk : s.InBounds (k - 1)) (h : s.PastTop k) :
    Reports [boundCheck s k] P (.error (.boundsFault (s.pc.toNat + k))) := by
  obtain ⟨h256, -⟩ := (preciseTrap_bound hk h.1 h.2).boundsFault_of_code rfl
  exact h256 ▸ .error (boundCheck_fails h) rfl rfl

theorem opnd_reports {k : Nat} (hk : s.InBounds (k - 1)) (b : Byte) :
    Reports [boundCheck s k] (fun v => v = b ∧ s.InBounds k) (s.opnd k b) := by
  obtain ⟨h, e⟩ | ⟨h, hm, e⟩ := s.opnd_cases k b
  · exact e ▸ .ok (boundCheck_passes h) ⟨rfl, h⟩
  · exact e ▸ boundsFault_reports hk ⟨h, hm⟩

theorem seqpc_reports {w : Nat} (hw : s.InBounds (w - 1)) :
    Reports [boundCheck s w] (fun n => n = s.pc + BitVec.ofNat 8 w ∧ s.InBounds w) (s.seqpc w) := by
  obtain ⟨h, e⟩ | ⟨h, hm, e⟩ := s.seqpc_cases w
  · exact e ▸ .ok (boundCheck_passes h) ⟨rfl, h⟩
  · exact e ▸ boundsFault_reports hw ⟨h, hm⟩

/-- An instruction that evaluates `seqpc(w)` after its operands and then writes: the successor bound is its last
check. -/
theorem thenSeqpc_reports {α : Type} {cs : List Check} {P : α → Prop} {Q : State → Prop} {w : Nat}
    {r : Except Trap α} {f : α → Byte → State} (hr : Reports cs P r) (hP : ∀ a, P a → s.InBounds (w - 1))
    (hf : ∀ a, P a → s.InBounds w → Q (f a (s.pc + BitVec.ofNat 8 w))) :
    Reports (cs ++ [boundCheck s w]) Q (r >>= fun a => s.seqpc w >>= fun n => pure (f a n)) := by
  refine hr.bind fun a ha => (seqpc_reports (hP a ha)).bind ?_
  rintro _ ⟨rfl, hw⟩
  exact .pure (hf a ha hw)

theorem regOperand_reports (b : Byte) :
    Reports [registerCheck b] (fun a : RegIdx => a.val = b.toNat) (regOperand b) := by
  obtain ⟨a, ha, e⟩ | ⟨h7, e⟩ := regOperand_cases b
  · have hle : b.toNat ≤ 7 := ha ▸ Nat.le_of_lt_succ a.isLt
    exact e ▸ .ok (by simp [registerCheck, hle]) ha
  · exact e ▸ .error (by simp [registerCheck, h7]) rfl (BitVec.ofNat_toNat 9 b)

variable (s)

theorem operandR_reports (x : Byte) :
    Reports [boundCheck s 1, registerCheck x] (fun a : RegIdx => a.val = x.toNat ∧ s.InBounds 1) (s.operandR x) := by
  refine (opnd_reports (inBounds_zero s) x).bind ?_
  rintro _ ⟨rfl, h1⟩
  exact (regOperand_reports _).imp fun a ha => ⟨ha, h1⟩

theorem operandsRR_reports (x y : Byte) :
    Reports [boundCheck s 1, registerCheck x, boundCheck s 2, registerCheck y]
      (fun p : RegIdx × RegIdx => p.1.val = x.toNat ∧ p.2.val = y.toNat ∧ s.InBounds 2) (s.operandsRR x y) := by
  refine (operandR_reports s x).bind fun a ⟨ha, h1⟩ => ?_
  refine (opnd_reports h1 y).bind ?_
  rintro _ ⟨rfl, h2⟩
  exact (regOperand_reports _).bind fun b hb => .pure ⟨ha, hb, h2⟩

theorem operandsRI_reports (x imm : Byte) :
    Reports [boundCheck s 1, registerCheck x, boundCheck s 2]
      (fun p : RegIdx × Byte => p.1.val = x.toNat ∧ p.2 = imm ∧ s.InBounds 2) (s.operandsRI x imm) := by
  refine (operandR_reports s x).bind fun a ⟨ha, h1⟩ => ?_
  exact (opnd_reports h1 imm).bind fun v ⟨hv, h2⟩ => .pure ⟨ha, hv, h2⟩

/-- JEQ and JNE: the successor bound is checked only when the jump is not taken (R114). -/
theorem condJump_reports (op : Byte) (taken : Bool) (x : Byte) :
    ∃ r, condJump op taken x s = complete op s r ∧
      Reports ([boundCheck s 1, registerCheck x] ++ if taken then [] else [boundCheck s 2])
        (fun t => ∃ a : RegIdx, a.val = x.toNat ∧ ((taken = true ∧ s.InBounds 1 ∧ t = s.setPc (s.reg a)) ∨
          (taken = false ∧ s.InBounds 2 ∧ t = s.setPc (s.pc + 2)))) r := by
  refine ⟨_, rfl, ?_⟩
  cases taken with
  | true => exact (operandR_reports s x).bind fun a ⟨ha, h1⟩ => .pure ⟨a, ha, .inl ⟨rfl, h1, rfl⟩⟩
  | false =>
    exact thenSeqpc_reports (w := 2) (operandR_reports s x) (fun _ ⟨_, h1⟩ => h1)
      fun a ⟨ha, _⟩ h2 => ⟨a, ha, .inr ⟨rfl, h2, rfl⟩⟩

/-- The checks of JNE in the form of `condJump_reports`. -/
theorem checksOf_jne (x : Byte) : checksOf s (.jne x) =
    [boundCheck s 1, registerCheck x] ++ if !flagE s.fl then [] else [boundCheck s 2] := by
  simp only [checksOf, flagE]
  split <;> simp_all

/-- An instruction reports its checks in the order of R117, and completes when they pass. -/
theorem exec_reports (i : Instr) :
    ∃ r, exec i s = complete (opcodeOf i) s r ∧ Reports (checksOf s i) (Completed s · i) r := by
  cases i with
  | hlt => exact ⟨.ok s.halt, rfl, .pure rfl⟩
  | ret => exact ⟨.ok _, rfl, .pure (by rw [incSp_eq]; rfl)⟩
  | ldi x imm =>
    exact ⟨_, rfl, thenSeqpc_reports (operandsRI_reports s x imm) (fun _ ⟨_, _, h2⟩ => h2)
      fun p ⟨ha, hv, _⟩ h3 => ⟨p.1, ha, h3, by rw [hv]; rfl⟩⟩
  | mul x y =>
    exact ⟨_, rfl, thenSeqpc_reports (operandsRR_reports s x y) (fun _ ⟨_, _, h2⟩ => h2)
      fun p ⟨ha, hb, _⟩ h3 => ⟨p.1, p.2, ha, hb, h3, by rw [alu_mul]; rfl⟩⟩
  | add x y =>
    exact ⟨_, rfl, thenSeqpc_reports (operandsRR_reports s x y) (fun _ ⟨_, _, h2⟩ => h2)
      fun p ⟨ha, hb, _⟩ h3 => ⟨p.1, p.2, ha, hb, h3, by rw [alu_add]; rfl⟩⟩
  | cmp x y =>
    exact ⟨_, rfl, thenSeqpc_reports (operandsRR_reports s x y) (fun _ ⟨_, _, h2⟩ => h2)
      fun p ⟨ha, hb, _⟩ h3 => ⟨p.1, p.2, ha, hb, h3, rfl⟩⟩
  | prn x =>
    exact ⟨_, rfl, thenSeqpc_reports (operandR_reports s x) (fun _ ⟨_, h1⟩ => h1)
      fun a ⟨ha, _⟩ h2 => ⟨a, ha, h2, rfl⟩⟩
  | push x =>
    exact ⟨_, rfl, thenSeqpc_reports (operandR_reports s x) (fun _ ⟨_, h1⟩ => h1)
      fun a ⟨ha, _⟩ h2 => ⟨a, ha, h2, by simp [State.decSp]⟩⟩
  | pop x =>
    exact ⟨_, rfl, thenSeqpc_reports (operandR_reports s x) (fun _ ⟨_, h1⟩ => h1)
      fun a ⟨ha, _⟩ h2 => ⟨a, ha, h2, rfl⟩⟩
  | call x =>
    exact ⟨_, rfl, thenSeqpc_reports (operandR_reports s x) (fun _ ⟨_, h1⟩ => h1)
      fun a ⟨ha, _⟩ h2 => ⟨a, ha, h2, by simp [State.decSp]⟩⟩
  | jmp x =>
    exact ⟨_, rfl, (operandR_reports s x).bind fun a ⟨ha, h1⟩ => .pure ⟨a, ha, h1, rfl⟩⟩
  | jeq x => exact condJump_reports s _ (flagE s.fl) x
  | jne x =>
    obtain ⟨r, e, h⟩ := condJump_reports s (opcodeOf (.jne x)) (!flagE s.fl) x
    exact ⟨r, e, by simpa [checksOf_jne, Completed] using h⟩

end

/-- The first failing check of an instruction gives the whole state it leaves. -/
theorem exec_of_check_fails {s : State} {i : Instr} {c : Check} (h : (checksOf s i).find? (·.fails) = some c) :
    exec i s = .next (s.faultedWith (opcodeOf i) c.code c.info) := by
  obtain ⟨r, e, hr⟩ := exec_reports s i
  exact e ▸ hr.complete_of_find?_eq_some h _ s

/-- An instruction none of whose checks fails completes. -/
theorem exec_of_checks_pass {s : State} {i : Instr} (h : (checksOf s i).find? (·.fails) = none) :
    ∃ t, exec i s = .next t ∧ Completed s t i := by
  obtain ⟨r, e, hr⟩ := exec_reports s i
  exact e ▸ hr.complete_of_find?_eq_none h _ s

/-- No check reads the trace. -/
theorem checksOf_recordTrace (s : State) (i : Instr) : checksOf s.recordTrace i = checksOf s i := by
  have hb : boundCheck s.recordTrace = boundCheck s := by funext n; simp [boundCheck]
  cases i <;> simp [checksOf, hb]

/-- A completed instruction keeps `STATUS`, unless it is HLT. -/
theorem Effect.status_eq {s t : State} {i : Instr} (h : Effect s i t) :
    (i = .hlt ∧ t = s.halt) ∨ t.status = s.status := by
  cases h with
  | halt => exact .inl ⟨rfl, rfl⟩
  | flags => exact .inr rfl
  | output => exact .inr rfl
  | store => exact .inr rfl
  | move => exact .inr rfl

theorem Effect.status_ne_fault {s t : State} {i : Instr} (h : Effect s i t) (hs : s.status = .run) :
    t.status ≠ .fault := by
  obtain ⟨-, rfl⟩ | ht := h.status_eq
  · simp
  · simp [ht, hs]

/-- Settles O10: `exec_of_check_fails` and `exec_of_checks_pass` after the trace entry, which no check reads. -/
theorem firstFailingCheckIsReported : Obligations.FirstFailingCheckIsReported := by
  refine fun s hs => ⟨step_of_not_mem_opcodes hs, fun i rest hd => ?_⟩
  rw [step_of_decode_ok hs hd, ← checksOf_recordTrace]
  split
  next c hc => exact opcodeOf_decode hd ▸ exec_of_check_fails hc
  next hc =>
    obtain ⟨t, ht, hcompleted⟩ := exec_of_checks_pass hc
    exact ⟨t, ht, hcompleted.effect.status_ne_fault (by simpa using hs)⟩

/-! ### BoundsFault -/

/-- Settles O12: of the faults a step can take, only the precise BoundsFault has cause 3. -/
theorem boundsFaultCarries256 : Obligations.BoundsFaultCarries256 := by
  intro s t h hfault hcause
  obtain ⟨hs, ⟨-, rfl⟩ | ⟨i, rest, -, -, ⟨e, hp, rfl⟩ | he⟩⟩ := step_effect h
  · simp [trapCode] at hcause
  · obtain ⟨rfl, hmode⟩ := hp.boundsFault_of_code hcause
    exact ⟨rfl, by simpa using hmode⟩
  · exact absurd hfault (he.status_ne_fault (by simpa using hs))

/-! ### HLT -/

theorem exec_hlt (s : State) : exec .hlt s = .next s.halt := rfl

theorem opcodeOf_eq_hlt {i : Instr} : opcodeOf i = 0x01 ↔ i = .hlt := by
  cases i <;> simp [opcodeOf]

theorem memRead_pc_eq_of_step_halts {s t : State} (h : step s = .next t) (ht : t.status = .halt) :
    s.memRead s.pc = 0x01 := by
  obtain ⟨hs, ⟨-, rfl⟩ | ⟨i, rest, -, hop, ⟨e, -, rfl⟩ | he⟩⟩ := step_effect h
  · simp at ht
  · simp at ht
  · obtain ⟨rfl, -⟩ | hkeep := he.status_eq
    · exact hop.symm
    · simp [hkeep, hs] at ht

theorem step_at_hlt {s t : State} (h : step s = .next t) (hop : s.memRead s.pc = 0x01) : t = s.recordTrace.halt := by
  obtain ⟨-, ⟨r, hd, -⟩ | ⟨i, rest, -, hi, he⟩⟩ := step_next h
  · exact absurd (hop ▸ opcodeOf_mem_opcodes .hlt) (not_mem_opcodes_of_decode_error hd)
  · obtain rfl := opcodeOf_eq_hlt.mp (hi.trans hop)
    simpa [exec_hlt] using he.symm

/-- Settles O27: HLT alone writes `STATUS` HALT, and a step at its byte runs it. -/
theorem hltHalts : Obligations.HltHalts := by
  refine ⟨exec_hlt, ?_, fun s t h => ⟨⟨memRead_pc_eq_of_step_halts h, fun hop => ?_⟩, fun ht => ?_⟩⟩
  · rintro s t u ⟨⟩
    exact step_ne_next_of_not_run (by simp) u
  · simp [step_at_hlt h hop]
  · simp [step_at_hlt h (memRead_pc_eq_of_step_halts h ht)]

/-- Settles O47: the state after HLT is `s.halt`, which differs from `s` in `STATUS` alone. -/
theorem haltFrame : Obligations.HaltFrame := by
  rintro s t ⟨⟩
  exact ⟨rfl, rfl, rfl, fun _ => rfl, rfl, rfl, rfl, rfl, rfl, rfl, rfl⟩

end Sys2Proof.Machine
end

section
/-! The ALU (spec/41_alu.md): its four operations, the faults of format `RR` as a list of checks, ADD, MUL and CMP,
and what they leave unchanged. -/

namespace Sys2Proof.Machine

/-! ### The four operations -/

/-- R7: `u8` is the remainder modulo 256, of a negative value too. -/
theorem toNat_u8_int (v : Int) : ((u8 v).toNat : Int) = v % 256 := by
  simp only [u8, BitVec.toNat_ofInt]
  omega

theorem cmpFlags_of_eq {a b : Byte} (h : a.toNat = b.toNat) : cmpFlags a b = 0x01 := if_pos h

theorem cmpFlags_of_gt {a b : Byte} (h : b.toNat < a.toNat) : cmpFlags a b = 0x02 :=
  (if_neg h.ne').trans (if_pos h)

theorem cmpFlags_of_lt {a b : Byte} (h : a.toNat < b.toNat) : cmpFlags a b = 0x04 :=
  (if_neg h.ne).trans (if_neg h.asymm)

/-- Settles O26: each result is the `u8` of an integer, and CMP's is the comparison of the unsigned values. -/
theorem aluResults : Obligations.AluResults := fun a b =>
  ⟨toNat_u8 (a.toNat + b.toNat), toNat_u8_int (a.toNat - b.toNat), toNat_u8 (a.toNat * b.toNat), cmpFlags_of_eq,
    cmpFlags_of_gt, cmpFlags_of_lt⟩

/-! ### The faults of an instruction from its list of checks -/

theorem inBounds_mono {s : State} {m n : Nat} (hmn : m ≤ n) (h : s.InBounds n) : s.InBounds m :=
  h.imp_left (Nat.add_le_add_left hmn s.pc.toNat).trans

theorem registerCheck_fails {b : Byte} (h : 7 < b.toNat) : (registerCheck b).fails = true := decide_eq_true h

theorem registerCheck_passes {b : Byte} (h : b.toNat ≤ 7) : (registerCheck b).fails = false :=
  decide_eq_false h.not_gt

theorem le_seven_of_namesRegister {b : Byte} (h : namesRegister b = true) : b.toNat ≤ 7 :=
  Nat.le_of_lt_succ (of_decide_eq_true h)

section
variable {s : State} {i : Instr} {x y : Byte} {cs : List Check}

/-- The check that stands after passing ones is reported if it fails (R117). -/
theorem exec_of_check_fails_after {before after : List Check} {c : Check}
    (hcs : checksOf s i = before ++ c :: after) (hpass : ∀ d ∈ before, d.fails = false) (hc : c.fails = true) :
    exec i s = .next (s.faultedWith (opcodeOf i) c.code c.info) :=
  exec_of_check_fails (by
    have hnone : before.find? (·.fails) = none := by simpa using hpass
    simp [hcs, List.find?_append, hnone, hc])

theorem firstOperandFaults_of_checks (hcs : checksOf s i = boundCheck s 1 :: registerCheck x :: cs) :
    FirstOperandFaults i (opcodeOf i) x s := by
  refine ⟨fun h1 => ?_, fun h1 h7 => ?_⟩
  · exact exec_of_check_fails_after (before := []) hcs (by simp) (boundCheck_fails h1)
  · exact exec_of_check_fails_after (before := [boundCheck s 1]) hcs (by simp [boundCheck_passes h1])
      (registerCheck_fails h7)

theorem secondOperandBound_of_checks
    (hcs : checksOf s i = boundCheck s 1 :: registerCheck x :: boundCheck s 2 :: cs) :
    SecondOperandBound i (opcodeOf i) x s := fun h1 hx h2 =>
  exec_of_check_fails_after (before := [boundCheck s 1, registerCheck x]) hcs
    (by simp [boundCheck_passes h1, registerCheck_passes hx]) (boundCheck_fails h2)

theorem secondOperandRegister_of_checks
    (hcs : checksOf s i = boundCheck s 1 :: registerCheck x :: boundCheck s 2 :: registerCheck y :: cs) :
    SecondOperandRegister i (opcodeOf i) x y s := fun h2 hx hy =>
  exec_of_check_fails_after (before := [boundCheck s 1, registerCheck x, boundCheck s 2]) hcs
    (by simp [boundCheck_passes h2, boundCheck_passes (inBounds_mono one_le_two h2), registerCheck_passes hx])
    (registerCheck_fails hy)

/-- The successor bound is the last check; it is reached if every operand passes. -/
theorem successorBound_of_checks {w : Nat} (hcs : checksOf s i = cs ++ [boundCheck s w])
    (hpass : s.InBounds (w - 1) → i.wellFormed = true → ∀ c ∈ cs, c.fails = false) :
    SuccessorBound i (opcodeOf i) w s := fun hb hwf hw =>
  exec_of_check_fails_after hcs (hpass hb hwf) (boundCheck_fails hw)

end

/-! ### Format `RR` -/

/-- The checks of the two operands of format `RR`, in the order of R117. -/
def operandChecksRR (s : State) (x y : Byte) : List Check :=
  [boundCheck s 1, registerCheck x, boundCheck s 2, registerCheck y]

section
variable {s : State} {i : Instr} {x y : Byte}

theorem operandChecksRR_pass (h : s.InBounds 2) (hx : x.toNat ≤ 7) (hy : y.toNat ≤ 7) :
    ∀ c ∈ operandChecksRR s x y, c.fails = false := by
  simp [operandChecksRR, boundCheck_passes h, boundCheck_passes (inBounds_mono one_le_two h),
    registerCheck_passes hx, registerCheck_passes hy]

theorem faultsOfRR_of_checks (hcs : checksOf s i = operandChecksRR s x y ++ [boundCheck s 3])
    (hwf : i.wellFormed = (namesRegister x && namesRegister y)) : FaultsOfRR i (opcodeOf i) x y s := by
  refine ⟨firstOperandFaults_of_checks hcs, secondOperandBound_of_checks hcs, secondOperandRegister_of_checks hcs,
    successorBound_of_checks hcs fun h2 hi => ?_⟩
  obtain ⟨hx, hy⟩ := Bool.and_eq_true_iff.mp (hwf ▸ hi)
  exact operandChecksRR_pass h2 (le_seven_of_namesRegister hx) (le_seven_of_namesRegister hy)

/-- An instruction of format `RR` on two registers within bounds completes, with the registers its operands name. -/
theorem exec_RR_completes {f : RegIdx → RegIdx → State} {a b : RegIdx}
    (hcs : checksOf s i = operandChecksRR s x y ++ [boundCheck s 3])
    (hf : ∀ t, Completed s t i → ∃ a b : RegIdx, a.val = x.toNat ∧ b.val = y.toNat ∧ s.InBounds 3 ∧ t = f a b)
    (ha : x.toNat = a.val) (hb : y.toNat = b.val) (h3 : s.InBounds 3) : exec i s = .next (f a b) := by
  have hpass := operandChecksRR_pass (inBounds_mono (by decide) h3) (ha ▸ Nat.le_of_lt_succ a.isLt)
    (hb ▸ Nat.le_of_lt_succ b.isLt)
  have hnone : (checksOf s i).find? (·.fails) = none := by
    simpa [hcs, boundCheck_passes h3] using hpass
  obtain ⟨t, ht, hc⟩ := exec_of_checks_pass hnone
  obtain ⟨a', b', ha', hb', -, rfl⟩ := hf t hc
  rw [ht, Fin.ext (ha'.trans ha), Fin.ext (hb'.trans hb)]

end

/-! ### ADD, MUL, CMP -/

/-- The byte that ADD writes, as the sum of unsigned values reduced modulo 256. -/
theorem add_eq_ofNat_mod (v w : Byte) : v + w = BitVec.ofNat 8 ((v.toNat + w.toNat) % 256) :=
  BitVec.eq_of_toNat_eq (by simp)

/-- The byte that MUL writes, as the product of unsigned values reduced modulo 256. -/
theorem mul_eq_ofNat_mod (v w : Byte) : v * w = BitVec.ofNat 8 ((v.toNat * w.toNat) % 256) :=
  BitVec.eq_of_toNat_eq (by simp)

section
variable {s : State} {x y : Byte} {a b : RegIdx}

theorem exec_add (ha : x.toNat = a.val) (hb : y.toNat = b.val) (h3 : s.InBounds 3) :
    exec (.add x y) s = .next ((s.setReg a (s.reg a + s.reg b)).setPc (s.pc + 3)) :=
  exec_RR_completes (f := fun a b => (s.setReg a (s.reg a + s.reg b)).setPc (s.pc + 3)) rfl (fun _ h => h) ha hb h3

theorem exec_mul (ha : x.toNat = a.val) (hb : y.toNat = b.val) (h3 : s.InBounds 3) :
    exec (.mul x y) s = .next ((s.setReg a (s.reg a * s.reg b)).setPc (s.pc + 3)) :=
  exec_RR_completes (f := fun a b => (s.setReg a (s.reg a * s.reg b)).setPc (s.pc + 3)) rfl (fun _ h => h) ha hb h3

theorem exec_cmp (ha : x.toNat = a.val) (hb : y.toNat = b.val) (h3 : s.InBounds 3) :
    exec (.cmp x y) s = .next ((s.setFl (cmpFlags (s.reg a) (s.reg b))).setPc (s.pc + 3)) :=
  exec_RR_completes (f := fun a b => (s.setFl (cmpFlags (s.reg a) (s.reg b))).setPc (s.pc + 3)) rfl (fun _ h => h)
    ha hb h3

end

/-- Settles O31: ADD is an instruction of format `RR` whose result is the byte sum. -/
theorem addWritesTheWrappedSum : Obligations.AddWritesTheWrappedSum := by
  refine fun x y s => ⟨fun a b ha hb h3 => ?_, faultsOfRR_of_checks rfl rfl⟩
  rw [exec_add ha hb h3, add_eq_ofNat_mod]
  rfl

/-- Settles O30: MUL is an instruction of format `RR` whose result is the byte product. -/
theorem mulWritesTheLowByte : Obligations.MulWritesTheLowByte := by
  refine fun x y s => ⟨fun a b ha hb h3 => ?_, faultsOfRR_of_checks rfl rfl⟩
  rw [exec_mul ha hb h3, mul_eq_ofNat_mod]
  rfl

/-- Settles O32: CMP is an instruction of format `RR`, and `cmpFlags` is the comparison written out. -/
theorem cmpOverwritesTheFlags : Obligations.CmpOverwritesTheFlags := fun _ _ _ =>
  ⟨fun _ _ => exec_cmp, faultsOfRR_of_checks rfl rfl⟩

/-! ### Frames -/

theorem recordKeptOrFaultEntry_raise (s : State) (op : Byte) (e : Trap) : RecordKeptOrFaultEntry s (s.raise op e) :=
  .inr ⟨op, trapCode e, trapInfo e, rfl⟩

/-- ADD, MUL and LDI, completed, write the register that operand byte 1 names, and `pc`. -/
theorem Completed.eq_setReg_setPc {s t : State} {x y : Byte} {i : Instr}
    (hi : i = .add x y ∨ i = .mul x y ∨ i = .ldi x y) (h : Completed s t i) :
    ∃ (a : RegIdx) (v n : Byte), a.val = x.toNat ∧ t = (s.setReg a v).setPc n := by
  obtain rfl | rfl | rfl := hi
  · obtain ⟨a, b, ha, -, -, ht⟩ := h; exact ⟨a, _, _, ha, ht⟩
  · obtain ⟨a, b, ha, -, -, ht⟩ := h; exact ⟨a, _, _, ha, ht⟩
  · obtain ⟨a, ha, -, ht⟩ := h; exact ⟨a, _, _, ha, ht⟩

/-- Settles O42: a fault entry keeps all but the record, and the completed instruction writes one register and `pc`. -/
theorem registerWritesFrame : Obligations.RegisterWritesFrame := by
  intro s t x y i hi h
  obtain ⟨e, -, rfl⟩ | hc := exec_next h
  · exact ⟨fun _ _ => rfl, rfl, fun _ => rfl, rfl, rfl, rfl, recordKeptOrFaultEntry_raise s _ e⟩
  · obtain ⟨a, v, n, ha, rfl⟩ := hc.eq_setReg_setPc hi
    refine ⟨fun r hr => ?_, rfl, fun _ => rfl, rfl, rfl, rfl, .inl ⟨rfl, rfl, rfl, rfl, rfl⟩⟩
    have hne : a ≠ r := by rintro rfl; exact hr ha
    simp [hne]

/-- Settles O43: a fault entry keeps all but the record, and a completed CMP writes `FL` and `pc`. -/
theorem compareFrame : Obligations.CompareFrame := by
  intro s t x y h
  obtain ⟨e, -, rfl⟩ | ⟨a, b, -, -, -, rfl⟩ := exec_next h
  · exact ⟨rfl, fun _ => rfl, rfl, rfl, rfl, recordKeptOrFaultEntry_raise s _ e⟩
  · exact ⟨rfl, fun _ => rfl, rfl, rfl, rfl, .inl ⟨rfl, rfl, rfl, rfl, rfl⟩⟩

end Sys2Proof.Machine
end

section
/-! Load and output (spec/42_data.md): instructions with one register operand as lists of checks, LDI and PRN, and what
PRN and the jumps leave unchanged. -/

namespace Sys2Proof.Machine

/-! ### One register operand -/

/-- The checks of the operand of format `R`, in the order of R117; an LDI starts with them too. -/
def operandChecksR (s : State) (x : Byte) : List Check := [boundCheck s 1, registerCheck x]

section
variable {s : State} {i : Instr} {x : Byte} {cs : List Check}

theorem operandChecksR_pass (h : s.InBounds 1) (hx : x.toNat ≤ 7) : ∀ c ∈ operandChecksR s x, c.fails = false := by
  simp [operandChecksR, boundCheck_passes h, registerCheck_passes hx]

theorem faultsOfR_of_checks (hcs : checksOf s i = operandChecksR s x ++ [boundCheck s 2])
    (hwf : i.wellFormed = namesRegister x) : FaultsOfR i (opcodeOf i) x s := by
  refine ⟨firstOperandFaults_of_checks hcs, successorBound_of_checks hcs fun h1 hi => ?_⟩
  exact operandChecksR_pass h1 (le_seven_of_namesRegister (hwf ▸ hi))

/-- An instruction on one register whose checks after it pass completes, with the register its operand names. -/
theorem exec_R_completes {f : RegIdx → State} {a : RegIdx} (hcs : checksOf s i = operandChecksR s x ++ cs)
    (hpass : ∀ c ∈ cs, c.fails = false) (hf : ∀ t, Completed s t i → ∃ a : RegIdx, a.val = x.toNat ∧ t = f a)
    (ha : x.toNat = a.val) (h1 : s.InBounds 1) : exec i s = .next (f a) := by
  have hpassR := operandChecksR_pass h1 (ha ▸ Nat.le_of_lt_succ a.isLt)
  have hnone : (checksOf s i).find? (·.fails) = none := by
    simpa [hcs, or_imp, forall_and] using ⟨hpassR, hpass⟩
  obtain ⟨t, ht, hc⟩ := exec_of_checks_pass hnone
  obtain ⟨a', ha', rfl⟩ := hf t hc
  rw [ht, Fin.ext (ha'.trans ha)]

end

/-! ### LDI -/

theorem exec_ldi {s : State} {x : Byte} {a : RegIdx} (imm : Byte) (ha : x.toNat = a.val) (h3 : s.InBounds 3) :
    exec (.ldi x imm) s = .next ((s.setReg a imm).setPc (s.pc + 3)) := by
  refine exec_R_completes (f := fun a => (s.setReg a imm).setPc (s.pc + 3)) (cs := [boundCheck s 2, boundCheck s 3])
    rfl ?_ (fun _ ⟨a, ha, _, ht⟩ => ⟨a, ha, ht⟩) ha (inBounds_mono (by decide) h3)
  simp [boundCheck_passes h3, boundCheck_passes (inBounds_mono (Nat.le_succ 2) h3)]

/-- Beside the register checks only the bound of the immediate comes before it: the immediate may be any byte (R85). -/
theorem successorBound_ldi (x imm : Byte) (s : State) : SuccessorBound (.ldi x imm) 0x82 3 s := by
  refine successorBound_of_checks (cs := operandChecksR s x ++ [boundCheck s 2]) rfl fun h2 hwf c hc => ?_
  obtain hc | hc := List.mem_append.mp hc
  · exact operandChecksR_pass (inBounds_mono one_le_two h2) (le_seven_of_namesRegister hwf) c hc
  · exact List.mem_singleton.mp hc ▸ boundCheck_passes h2

/-- Settles O28: LDI checks its register, the bound of its immediate and the successor bound, and then writes. -/
theorem ldiLoadsTheImmediate : Obligations.LdiLoadsTheImmediate := fun x imm s =>
  ⟨fun _ => exec_ldi imm, firstOperandFaults_of_checks rfl, secondOperandBound_of_checks rfl,
    successorBound_ldi x imm s⟩

/-! ### PRN -/

theorem exec_prn {s : State} {x : Byte} {a : RegIdx} (ha : x.toNat = a.val) (h2 : s.InBounds 2) :
    exec (.prn x) s = .next ((s.emit (s.reg a)).setPc (s.pc + 2)) :=
  exec_R_completes (f := fun a => (s.emit (s.reg a)).setPc (s.pc + 2)) (cs := [boundCheck s 2]) rfl
    (by simp [boundCheck_passes h2]) (fun _ ⟨a, ha, _, ht⟩ => ⟨a, ha, ht⟩) ha (inBounds_mono one_le_two h2)

/-- Settles O29: PRN is an instruction of format `R` that emits the register's byte once its checks have passed. -/
theorem prnEmitsTheRegister : Obligations.PrnEmitsTheRegister := fun _ _ =>
  ⟨fun _ => exec_prn, faultsOfR_of_checks rfl rfl⟩

/-! ### Frame -/

/-- JMP, JEQ and JNE, completed, write `pc` alone. -/
theorem Completed.eq_setPc {s t : State} {x : Byte} {i : Instr} (hi : i = .jmp x ∨ i = .jeq x ∨ i = .jne x)
    (h : Completed s t i) : ∃ n, t = s.setPc n := by
  obtain rfl | rfl | rfl := hi
  · obtain ⟨a, -, -, ht⟩ := h; exact ⟨_, ht⟩
  · obtain ⟨a, -, ⟨-, -, ht⟩ | ⟨-, -, ht⟩⟩ := h <;> exact ⟨_, ht⟩
  · obtain ⟨a, -, ⟨-, -, ht⟩ | ⟨-, -, ht⟩⟩ := h <;> exact ⟨_, ht⟩

/-- Settles O44: a fault entry keeps all but the record, a completed PRN appends to `OUT` and writes `pc`, and a
completed jump writes `pc` alone. -/
theorem printAndJumpFrame : Obligations.PrintAndJumpFrame := by
  intro s t x i hi h
  obtain ⟨e, -, rfl⟩ | hc := exec_next h
  · exact ⟨rfl, rfl, fun _ => rfl, List.prefix_refl _, fun _ => rfl, rfl, rfl, recordKeptOrFaultEntry_raise s _ e⟩
  obtain rfl | hjump := hi
  · obtain ⟨a, -, -, rfl⟩ := hc
    exact ⟨rfl, rfl, fun _ => rfl, List.prefix_append _ _, fun hne => absurd rfl hne, rfl, rfl,
      .inl ⟨rfl, rfl, rfl, rfl, rfl⟩⟩
  · obtain ⟨n, rfl⟩ := hc.eq_setPc hjump
    exact ⟨rfl, rfl, fun _ => rfl, List.prefix_refl _, fun _ => rfl, rfl, rfl, .inl ⟨rfl, rfl, rfl, rfl, rfl⟩⟩

end Sys2Proof.Machine
end

section
/-! The stack (spec/43_stack.md): the states PUSH and POP leave, what the pairs of R172 do, and what PUSH, CALL, POP
and RET leave unchanged. -/

namespace Sys2Proof.Machine

theorem inBounds_of_pc_add_two {s t : State} {n : Nat} (hpc : t.pc = s.pc + 2) (hparams : t.params = s.params)
    (h : s.InBounds (n + 2)) : t.InBounds n := by
  rw [State.InBounds, hpc, hparams]
  exact h.imp_left fun hle => by bv_omega

/-! ### The state after PUSH and the state after POP -/

/-- The state a PUSH of register `a` leaves when its checks pass. -/
def State.pushed (s : State) (a : RegIdx) : State := (s.decSp.memWrite s.pushAddr (s.decSp.reg a)).setPc (s.pc + 2)

/-- The state a POP into register `a` leaves when its checks pass. -/
def State.popped (s : State) (a : RegIdx) : State := (s.setReg a (s.memRead s.sp)).incSp.setPc (s.pc + 2)

theorem exec_push {s : State} {x : Byte} {a : RegIdx} (ha : x.toNat = a.val) (h2 : s.InBounds 2) :
    exec (.push x) s = .next (s.pushed a) :=
  exec_R_completes (cs := [boundCheck s 2]) rfl (by simp [boundCheck_passes h2])
    (fun _ ⟨a, ha, _, ht⟩ => ⟨a, ha, ht⟩) ha (inBounds_mono one_le_two h2)

theorem exec_pop {s : State} {x : Byte} {a : RegIdx} (ha : x.toNat = a.val) (h2 : s.InBounds 2) :
    exec (.pop x) s = .next (s.popped a) :=
  exec_R_completes (cs := [boundCheck s 2]) rfl (by simp [boundCheck_passes h2])
    (fun _ ⟨a, ha, _, ht⟩ => ⟨a, ha, ht⟩) ha (inBounds_mono one_le_two h2)

section
variable (s : State) (a : RegIdx)

theorem decSp_reg (r : RegIdx) : s.decSp.reg r = if r = 7 then s.reg 7 - 1 else s.reg r := by
  simp [decSp_eq, State.sp, eq_comm]

theorem incSp_reg (r : RegIdx) : s.incSp.reg r = if r = 7 then s.reg 7 + 1 else s.reg r := by
  simp [incSp_eq, State.sp, eq_comm]

theorem pushed_reg (r : RegIdx) : (s.pushed a).reg r = if r = 7 then s.reg 7 - 1 else s.reg r := decSp_reg s r

/-- R170: the stored byte is `x[a]` after the decrement, `SP - 1` itself for R7. -/
theorem pushed_memRead (hwf : Memory.wf s.mem = true) (x : Byte) :
    (s.pushed a).memRead x =
      if x = s.reg 7 - 1 then (if a = 7 then s.reg 7 - 1 else s.reg a) else s.memRead x := by
  change (s.decSp.memWrite s.pushAddr (s.decSp.reg a)).memRead x = _
  rw [decSp_reg, pushAddr_eq]
  by_cases hx : x = s.reg 7 - 1
  · rw [hx, if_pos rfl]
    exact s.decSp.memRead_memWrite_same hwf _ _
  · rw [if_neg hx]
    exact s.decSp.memRead_memWrite_other _ _ hx

theorem wf_pushed (hwf : Memory.wf s.mem = true) : Memory.wf (s.pushed a).mem = true := s.decSp.wf_memWrite hwf _ _

theorem pushed_inBounds {n : Nat} (h : s.InBounds (n + 2)) : (s.pushed a).InBounds n := inBounds_of_pc_add_two rfl rfl h

/-- R171: the increment reads `SP` after the load, so a POP into R7 increments the popped byte. -/
theorem popped_reg (r : RegIdx) : (s.popped a).reg r =
    if r = 7 then (if a = 7 then s.memRead (s.reg 7) else s.reg 7) + 1
    else if a = r then s.memRead (s.reg 7) else s.reg r := by
  change (s.setReg a (s.memRead s.sp)).incSp.reg r = _
  rw [incSp_reg, State.reg_setReg, State.reg_setReg]
  rfl

@[simp] theorem popped_memRead (x : Byte) : (s.popped a).memRead x = s.memRead x := rfl

theorem popped_inBounds {n : Nat} (h : s.InBounds (n + 2)) : (s.popped a).InBounds n := inBounds_of_pc_add_two rfl rfl h

end

/-- Settles O33: PUSH is an instruction of format `R` that leaves `State.pushed` once its checks have passed. -/
theorem pushStoresBelowTheStack : Obligations.PushStoresBelowTheStack := by
  refine fun x s => ⟨fun a ha h2 hwf => ⟨s.pushed a, exec_push ha h2, ?_, pushed_memRead s a hwf⟩,
    faultsOfR_of_checks rfl rfl⟩
  rw [State.pushed, decSp_eq]
  rfl

/-- Settles O34: POP is an instruction of format `R` that leaves `State.popped` once its checks have passed. -/
theorem popLoadsTheTopOfStack : Obligations.PopLoadsTheTopOfStack := by
  refine fun x s => ⟨fun a ha h2 => ⟨s.popped a, exec_pop ha h2, rfl, fun hne => ?_, fun heq => ?_,
    fun r hra hr7 => ?_⟩, faultsOfR_of_checks rfl rfl⟩
  · simp [popped_reg, hne]
  · simp [popped_reg, heq]
  · simp [popped_reg, hr7, hra.symm]

/-! ### The stack laws (R172) -/

section
variable (s : State) (a : RegIdx) (hwf : Memory.wf s.mem = true)
include hwf

theorem pushed_memRead_top (ha : a ≠ 7) : (s.pushed a).memRead (s.reg 7 - 1) = s.reg a := by
  simp [pushed_memRead s a hwf, ha]

theorem pushed_seven_memRead_top : (s.pushed 7).memRead (s.reg 7 - 1) = s.reg 7 - 1 := by
  simp [pushed_memRead s 7 hwf]

/-- A push keeps the byte that was the top of the stack. -/
theorem pushed_memRead_sp : (s.pushed a).memRead (s.reg 7) = s.memRead (s.reg 7) := by
  have hne : s.reg 7 ≠ s.reg 7 - 1 := by bv_omega
  rw [pushed_memRead s a hwf, if_neg hne]

/-- A PUSH of `a` and a POP into `c` move `x[a]` to `x[c]` and keep every other register, `SP` among them. -/
theorem pushed_popped_reg {c : RegIdx} (ha : a ≠ 7) (hc : c ≠ 7) (r : RegIdx) :
    ((s.pushed a).popped c).reg r = if c = r then s.reg a else s.reg r := by
  rw [popped_reg, pushed_reg s a 7, if_pos rfl, pushed_memRead_top s a hwf ha, if_neg hc]
  by_cases hr : r = 7
  · simp [hr, hc]
  · simp [hr, pushed_reg]

/-- Law (b): with `x[a]` on top of the stack, a second pair moves `x[b]` to `x[c]` and leaves the stack as it was, so
a POP into `d` takes `x[a]`. -/
theorem pushed_pushed_popped_popped_reg {b c d : RegIdx} (ha : a ≠ 7) (hb : b ≠ 7) (hc : c ≠ 7) (hd : d ≠ 7)
    (r : RegIdx) : ((((s.pushed a).pushed b).popped c).popped d).reg r =
      if d = r then s.reg a else if c = r then s.reg b else s.reg r := by
  have hwf' := wf_pushed s a hwf
  rw [popped_reg, pushed_popped_reg _ b hwf' hb hc, pushed_popped_reg _ b hwf' hb hc, popped_memRead, if_neg hc,
    pushed_memRead_sp _ b hwf', pushed_reg s a 7, if_pos rfl, pushed_memRead_top s a hwf ha]
  by_cases hr : r = 7
  · simp [hr, hc, hd]
  · simp [hr, hb, pushed_reg]

/-- Law (c): the popped byte is `SP - 1`, and POP increments it. -/
theorem pushed_seven_popped_seven_sp : ((s.pushed 7).popped 7).reg 7 = s.reg 7 := by
  rw [popped_reg, if_pos rfl, if_pos rfl, pushed_reg, if_pos rfl, pushed_seven_memRead_top s hwf,
    BitVec.sub_add_cancel]

end

/-- Law (a): the register takes back its own value. -/
theorem pushed_popped_regs {s : State} {a : RegIdx} (hwf : Memory.wf s.mem = true) (ha : a ≠ 7) :
    ((s.pushed a).popped a).regs = s.regs := by
  refine State.regs_eq_of_reg_eq fun r => ?_
  rw [pushed_popped_reg s a hwf ha ha]
  split
  next h => rw [h]
  next => rfl

/-- Settles O40: the registers after each pair of R172, along instructions that complete. -/
theorem stackLaws : Obligations.StackLaws := by
  refine ⟨fun s x a hx ha h4 hwf => ?_, fun s x y z w a b c d hx hy hz hw ha hb hc hd hcd h8 hwf => ?_,
    fun s h4 hwf => ?_, fun s h2 => ?_⟩
  · exact ⟨_, _, exec_push hx (inBounds_mono (by decide) h4), exec_pop hx (pushed_inBounds s a h4),
      pushed_popped_regs hwf ha, pushed_memRead_top s a hwf ha⟩
  · have h6 := pushed_inBounds s a h8
    have h4 := pushed_inBounds _ b h6
    have h2 := popped_inBounds _ c h4
    have hreg := pushed_pushed_popped_popped_reg s a hwf ha hb hc hd
    refine ⟨_, _, _, _, exec_push hx (inBounds_mono (by decide) h8), exec_push hy (inBounds_mono (by decide) h6),
      exec_pop hz (inBounds_mono (by decide) h4), exec_pop hw h2, ?_, ?_, ?_⟩
    · simp [hreg, hcd.symm]
    · simp [hreg]
    · simp [hreg, hc, hd]
  · exact ⟨_, _, exec_push (a := 7) rfl (inBounds_mono (by decide) h4), pushed_seven_memRead_top s hwf,
      exec_pop (a := 7) rfl (pushed_inBounds s 7 h4), pushed_seven_popped_seven_sp s hwf⟩
  · exact ⟨_, exec_pop (a := 7) rfl h2, popped_reg s 7 7⟩

/-! ### Frames -/

/-- PUSH and CALL, completed, decrement `SP`, store one byte at the address it then names, and write `pc`. -/
theorem Completed.eq_decSp_memWrite_setPc {s t : State} {x : Byte} {i : Instr} (hi : i = .push x ∨ i = .call x)
    (h : Completed s t i) : ∃ v n, t = (s.decSp.memWrite s.pushAddr v).setPc n := by
  obtain rfl | rfl := hi
  · obtain ⟨a, -, -, ht⟩ := h; exact ⟨_, _, ht⟩
  · obtain ⟨a, -, -, ht⟩ := h; exact ⟨_, _, ht⟩

/-- Settles O45: a fault entry keeps all but the record, and a completed PUSH or CALL writes `SP`, one byte of memory
and `pc`. -/
theorem pushAndCallFrame : Obligations.PushAndCallFrame := by
  intro s t x i hi h
  obtain ⟨e, -, rfl⟩ | hc := exec_next h
  · exact ⟨fun _ _ => rfl, rfl, fun _ _ => rfl, rfl, rfl, rfl, recordKeptOrFaultEntry_raise s _ e⟩
  · obtain ⟨v, n, rfl⟩ := hc.eq_decSp_memWrite_setPc hi
    exact ⟨fun r hr => (decSp_reg s r).trans (if_neg hr), rfl,
      fun b hb => s.decSp.memRead_memWrite_other s.pushAddr v hb, rfl, rfl, rfl, .inl ⟨rfl, rfl, rfl, rfl, rfl⟩⟩

/-- Settles O46: a fault entry keeps all but the record, a completed POP writes its register, `SP` and `pc`, and RET
`SP` and `pc` without a check. -/
theorem popAndRetFrame : Obligations.PopAndRetFrame := by
  refine ⟨fun s t x h => ?_, ?_⟩
  · obtain ⟨e, -, rfl⟩ | ⟨a, ha, -, rfl⟩ := exec_next h
    · exact ⟨fun _ _ _ => rfl, rfl, fun _ => rfl, rfl, rfl, rfl, recordKeptOrFaultEntry_raise s _ e⟩
    · refine ⟨fun r hr7 hrx => ?_, rfl, fun _ => rfl, rfl, rfl, rfl, .inl ⟨rfl, rfl, rfl, rfl, rfl⟩⟩
      have hne : a ≠ r := by rintro rfl; exact hrx ha
      exact (popped_reg s a r).trans (by simp [hr7, hne])
  · rintro s t ⟨⟩
    exact ⟨fun r hr => (incSp_reg s r).trans (if_neg hr), rfl, fun _ => rfl, rfl, rfl, rfl, rfl, rfl, rfl, rfl, rfl⟩

end Sys2Proof.Machine
end

section
/-! Control transfer (spec/44_control.md): the state CALL leaves, RET, JMP and the conditional jumps, and a RET that
finds the stack as its CALL left it (R186). -/

namespace Sys2Proof.Machine

/-! ### CALL -/

/-- The state a CALL through register `a` leaves when its checks pass. -/
def State.called (s : State) (a : RegIdx) : State := (s.decSp.memWrite s.pushAddr (s.pc + 2)).setPc (s.decSp.reg a)

theorem exec_call {s : State} {x : Byte} {a : RegIdx} (ha : x.toNat = a.val) (h2 : s.InBounds 2) :
    exec (.call x) s = .next (s.called a) :=
  exec_R_completes (cs := [boundCheck s 2]) rfl (by simp [boundCheck_passes h2])
    (fun _ ⟨a, ha, _, ht⟩ => ⟨a, ha, ht⟩) ha (inBounds_mono one_le_two h2)

section
variable (s : State) (a : RegIdx)

/-- CALL writes `SP`, one byte of memory and `pc`; `CALL R7` jumps to the decremented `SP`. -/
theorem called_eq : s.called a =
    { s with regs := s.regs.set 7 (s.reg 7 - 1), mem := (s.called a).mem,
             pc := if a = 7 then s.reg 7 - 1 else s.reg a } := by
  rw [State.called, decSp_reg, decSp_eq]
  rfl

theorem called_sp : (s.called a).reg 7 = s.reg 7 - 1 := decSp_reg s 7

theorem called_memRead (hwf : Memory.wf s.mem = true) (x : Byte) :
    (s.called a).memRead x = if x = s.reg 7 - 1 then s.pc + 2 else s.memRead x := by
  change (s.decSp.memWrite s.pushAddr (s.pc + 2)).memRead x = _
  rw [pushAddr_eq]
  split
  next hx => exact hx ▸ s.decSp.memRead_memWrite_same hwf _ _
  next hx => exact s.decSp.memRead_memWrite_other _ _ hx

/-- The byte at the new `SP` is the return address. -/
theorem called_memRead_sp (hwf : Memory.wf s.mem = true) : (s.called a).memRead ((s.called a).reg 7) = s.pc + 2 := by
  rw [called_sp, called_memRead s a hwf, if_pos rfl]

end

/-- Settles O35: CALL is an instruction of format `R` that leaves `State.called` once its checks have passed. -/
theorem callPushesTheReturnAddress : Obligations.CallPushesTheReturnAddress := fun _ s =>
  ⟨fun a ha h2 hwf => ⟨s.called a, exec_call ha h2, called_eq s a, called_memRead s a hwf⟩,
    faultsOfR_of_checks rfl rfl⟩

/-! ### RET -/

theorem exec_ret (s : State) : exec .ret s = .next (s.incSp.setPc (s.memRead s.sp)) := rfl

/-- Settles O36: the increment of `SP` modulo 256 is the byte sum. -/
theorem retPopsThePc : Obligations.RetPopsThePc := by
  intro s
  rw [exec_ret, incSp_eq]
  rfl

/-- Settles O41: the RET loads the return address that `called_memRead_sp` finds at `SP`, and its increment undoes the
decrement of the CALL. -/
theorem retAfterCallResumes : Obligations.RetAfterCallResumes := by
  intro s u x a ha h2 hwf
  refine ⟨s.called a, exec_call ha h2, called_sp s a, called_memRead_sp s a hwf, fun hsp hbyte =>
    ⟨_, exec_ret u, hbyte.trans (called_memRead_sp s a hwf), ?_⟩⟩
  calc u.incSp.reg 7 = u.reg 7 + 1 := incSp_reg u 7
    _ = s.reg 7 - 1 + 1 := by rw [hsp, called_sp]
    _ = s.reg 7 := BitVec.sub_add_cancel _ _

/-! ### JMP -/

theorem exec_jmp {s : State} {x : Byte} {a : RegIdx} (ha : x.toNat = a.val) (h1 : s.InBounds 1) :
    exec (.jmp x) s = .next (s.setPc (s.reg a)) :=
  exec_R_completes (f := fun a => s.setPc (s.reg a)) (cs := []) rfl (by simp)
    (fun _ ⟨a, ha, _, ht⟩ => ⟨a, ha, ht⟩) ha h1

/-- Settles O37: the checks of JMP are those of its operand alone. -/
theorem jmpGoesToTheRegister : Obligations.JmpGoesToTheRegister := fun _ _ =>
  ⟨fun _ => exec_jmp, firstOperandFaults_of_checks rfl⟩

/-! ### JEQ and JNE -/

section
variable {s : State} {x : Byte} {a : RegIdx} (op : Byte)

theorem condJump_taken (ha : x.toNat = a.val) (h1 : s.InBounds 1) :
    condJump op true x s = .next (s.setPc (s.reg a)) := by
  rw [condJump, State.operandR_ok ha h1]
  rfl

theorem condJump_not_taken (ha : x.toNat = a.val) (h2 : s.InBounds 2) :
    condJump op false x s = .next (s.setPc (s.pc + 2)) := by
  rw [condJump, State.operandR_ok ha (inBounds_mono one_le_two h2), State.seqpc_ok h2]
  rfl

end

section
variable {s : State} (x : Byte)

theorem exec_jeq {e : Bool} (he : s.fl.getLsbD 0 = e) : exec (.jeq x) s = condJump 0x55 e x s := he ▸ rfl

theorem exec_jne {e : Bool} (he : s.fl.getLsbD 0 = e) : exec (.jne x) s = condJump 0x56 (!e) x s := he ▸ rfl

theorem checksOf_jeq_not_taken (he : s.fl.getLsbD 0 = false) :
    checksOf s (.jeq x) = operandChecksR s x ++ [boundCheck s 2] := by
  rw [checksOf, he]
  rfl

theorem checksOf_jne_not_taken (he : s.fl.getLsbD 0 = true) :
    checksOf s (.jne x) = operandChecksR s x ++ [boundCheck s 2] := by
  rw [checksOf, he]
  rfl

end

/-- Settles O38: JEQ is the conditional jump taken on `FL[0] = 1`, and not taken it checks as an instruction of format
`R` does. -/
theorem jeqTakenIfEqual : Obligations.JeqTakenIfEqual := fun x _ =>
  ⟨fun _ ha he h1 => (exec_jeq x he).trans (condJump_taken _ ha h1),
    fun _ ha he h2 => (exec_jeq x he).trans (condJump_not_taken _ ha h2),
    firstOperandFaults_of_checks rfl,
    fun he => (faultsOfR_of_checks (checksOf_jeq_not_taken x he) rfl).2⟩

/-- Settles O39: JNE is the conditional jump taken on `FL[0] = 0`, and not taken it checks as an instruction of format
`R` does. -/
theorem jneTakenIfNotEqual : Obligations.JneTakenIfNotEqual := fun x _ =>
  ⟨fun _ ha he h1 => (exec_jne x he).trans (condJump_taken _ ha h1),
    fun _ ha he h2 => (exec_jne x he).trans (condJump_not_taken _ ha h2),
    firstOperandFaults_of_checks rfl,
    fun he => (faultsOfR_of_checks (checksOf_jne_not_taken x he) rfl).2⟩

end Sys2Proof.Machine
end

section
/-! Exceptions (spec/60_exceptions.md): a run as one sequence of steps, the trace entry of a step, what a fault leaves
(R206), and where BoundsFault is raised (R203). -/

namespace Sys2Proof.Machine

/-! ### A run is one sequence of steps (R213) -/

theorem run_add (m n : Nat) (s : State) : run (m + n) s = run n (run m s) := by
  induction m generalizing s with
  | zero => rw [Nat.zero_add, run_zero]
  | succ m ih =>
    by_cases h : ∃ t, step s = .next t
    · obtain ⟨t, ht⟩ := h
      rw [Nat.succ_add, run_succ_of_next ht, run_succ_of_next ht, ih]
    · have hno := not_exists.mp h
      rw [run_of_no_step hno, run_of_no_step hno, run_of_no_step hno]

theorem run_of_not_run {s : State} (hs : s.status ≠ .run) (n : Nat) : run n s = s :=
  run_of_no_step (step_ne_next_of_not_run hs) n

theorem step_eq_next_run_one {s : State} (hs : s.status = .run) : step s = .next (run 1 s) := by
  obtain ⟨t, ht⟩ := step_answers_of_run hs
  rw [run_succ_of_next ht 0, run_zero, ht]

/-- Settles O49: each clause is about the last steps of a run, which `run_add` makes a run of their own. -/
theorem runIsOneSequenceOfSteps : Obligations.RunIsOneSequenceOfSteps := by
  refine fun s m n => ⟨run_add m n s, fun hrun => ?_, fun hstop => ?_⟩
  · rw [run_add m 1 s]
    exact step_eq_next_run_one hrun
  · rw [run_add m n s]
    exact run_of_not_run hstop n

/-! ### The trace entry of a step (R215) -/

theorem Effect.trace_eq {s t : State} {i : Instr} (h : Effect s i t) : t.trace = s.trace := by
  cases h <;> rfl

/-- The trace after a step is the one `recordTrace` leaves, at a byte that is an opcode. -/
theorem step_trace {s t : State} (h : step s = .next t) :
    (s.memRead s.pc ∉ opcodes ∧ t.trace = s.trace) ∨
      (s.memRead s.pc ∈ opcodes ∧ t.trace = s.recordTrace.trace) := by
  obtain ⟨-, ⟨hop, rfl⟩ | ⟨i, rest, -, hop, he⟩⟩ := step_effect h
  · exact .inl ⟨hop, rfl⟩
  · refine .inr ⟨hop ▸ opcodeOf_mem_opcodes i, ?_⟩
    obtain ⟨e, -, rfl⟩ | he := he
    · rfl
    · exact he.trace_eq

/-- Settles O19: only `recordTrace` writes the trace, and a step reaches it exactly at an opcode. -/
theorem traceRecordsDecodedSteps : Obligations.TraceRecordsDecodedSteps := by
  intro s t h
  obtain ⟨hop, ht⟩ | ⟨hop, ht⟩ := step_trace h
  · simp [ht, hop]
  · simp [ht, hop, traceEntry_eq]

/-! ### What a fault leaves (R206) -/

/-- A step that ends in a fault took UnknownOpcode, or a precise fault of the decoded instruction after the trace
entry. -/
theorem step_faults {s t : State} (h : step s = .next t) (hfault : t.status = .fault) :
    t = s.raise (s.memRead s.pc) .unknownOpcode ∨
      ∃ e, PreciseTrap s.recordTrace e ∧ t = s.recordTrace.raise (s.memRead s.pc) e := by
  obtain ⟨hs, ⟨-, ht⟩ | ⟨i, rest, -, -, he | he⟩⟩ := step_effect h
  · exact .inl ht
  · exact .inr he
  · exact absurd hfault (he.status_ne_fault (by simpa using hs))

theorem PreciseTrap.code_info {s : State} {e : Trap} (h : PreciseTrap s e) :
    (trapCode e = 2 ∧ 8 ≤ (trapInfo e).toNat ∧ (trapInfo e).toNat ≤ 255) ∨ (trapCode e = 3 ∧ trapInfo e = 256) := by
  obtain ⟨rfl, -⟩ | ⟨b, rfl, hb⟩ := h
  · exact .inr ⟨rfl, rfl⟩
  · have hinfo : (trapInfo (.illegalRegister b)).toNat = b.toNat := by simp [trapInfo]; omega
    exact .inl ⟨rfl, by omega, by omega⟩

theorem recordTrace_eq (s : State) : s.recordTrace = { s with trace := s.recordTrace.trace } := by
  unfold State.recordTrace
  split <;> rfl

theorem recordTrace_raise_eq (s : State) (op : Byte) (e : Trap) :
    s.recordTrace.raise op e = { s.faultedWith op (trapCode e) (trapInfo e) with trace := s.recordTrace.trace } := by
  rw [recordTrace_eq]
  rfl

/-- Settles O11: every fault of a step is an entry of `raise`, from the state before it or from that state with its
trace entry. -/
theorem faultsArePrecise : Obligations.FaultsArePrecise := by
  intro s t h hfault
  have hno := step_ne_next_of_not_run (s := t) (by simp [hfault])
  obtain rfl | ⟨e, he, rfl⟩ := step_faults h hfault
  · exact ⟨rfl, .inl ⟨rfl, rfl⟩, hno⟩
  · exact ⟨recordTrace_raise_eq s _ e, .inr he.code_info, hno⟩

/-! ### Where BoundsFault is raised (R203) -/

/-- How far past `pc` the bound checks of an instruction go: its last operand byte, or its sequential next pc where it
evaluates one (R114). -/
def reach (s : State) : Instr → Nat
  | .hlt | .ret => 0
  | .ldi .. | .mul .. | .add .. | .cmp .. => 3
  | .prn _ | .push _ | .pop _ | .call _ => 2
  | .jmp _ => 1
  | .jeq _ => if s.fl.getLsbD 0 then 1 else 2
  | .jne _ => if s.fl.getLsbD 0 then 2 else 1

/-- The operand bytes of an instruction that stand for registers (R84, R85). -/
def registerOperands : Instr → List Byte
  | .hlt | .ret => []
  | .ldi x _ | .prn x | .push x | .pop x | .call x | .jmp x | .jeq x | .jne x => [x]
  | .mul x y | .add x y | .cmp x y => [x, y]

theorem wellFormed_eq_all (i : Instr) : i.wellFormed = (registerOperands i).all namesRegister := by
  cases i <;> simp [Instr.wellFormed, registerOperands]

theorem boundsFaultAt_iff (s : State) (i : Instr) : boundsFaultAt s i ↔ 255 < s.pc.toNat + reach s i := by
  have hpc := s.pc.isLt
  cases i with
  | hlt | ret => simp only [boundsFaultAt, reach, false_iff]; omega
  | jeq x | jne x =>
    simp only [boundsFaultAt, reach]
    cases s.fl.getLsbD 0 <;> simp <;> omega
  | _ => simp only [boundsFaultAt, reach]; omega

/-- The checks of an instruction are the bound checks up to its reach and the range checks of its register operands. -/
theorem mem_checksOf_iff (s : State) (i : Instr) (c : Check) :
    c ∈ checksOf s i ↔ c ∈ (List.range' 1 (reach s i)).map (boundCheck s) ∨
      c ∈ (registerOperands i).map registerCheck := by
  cases i with
  | jeq x | jne x =>
    simp only [checksOf, reach]
    cases s.fl.getLsbD 0 <;> simp [registerOperands, List.range', or_assoc, or_comm]
  | _ => simp [checksOf, reach, registerOperands, List.range', or_assoc, or_comm, or_left_comm]

theorem pastTop_reach_iff {s : State} {i : Instr} :
    s.PastTop (reach s i) ↔ s.params.boundsMode = .fault ∧ boundsFaultAt s i := by
  rw [boundsFaultAt_iff, and_comm]

/-- A check that fails is a bound check within reach, at a `pc` of R203's list, or the range check of an operand that
names no register. -/
theorem failing_check_cases {s : State} {i : Instr} {c : Check} (h : c ∈ checksOf s i) (hc : c.fails = true) :
    (c.code = 3 ∧ c.info = 256 ∧ s.PastTop (reach s i)) ∨ (c.code = 2 ∧ i.wellFormed = false) := by
  obtain h | h := (mem_checksOf_iff s i c).mp h
  · obtain ⟨k, hk, rfl⟩ := List.mem_map.mp h
    obtain ⟨-, hk⟩ := List.mem_range'_1.mp hk
    simp only [boundCheck, Bool.and_eq_true, decide_eq_true_eq] at hc
    exact .inl ⟨rfl, rfl, by omega, hc.2⟩
  · obtain ⟨b, hb, rfl⟩ := List.mem_map.mp h
    have hreg : ¬ namesRegister b = true := fun hreg => by
      simp [registerCheck_passes (le_seven_of_namesRegister hreg)] at hc
    refine .inr ⟨rfl, ?_⟩
    rw [wellFormed_eq_all, List.all_eq_false]
    exact ⟨b, hb, hreg⟩

/-- At a `pc` of R203's list in fault mode some check fails: the one at the instruction's reach does, if none before. -/
theorem exists_failing_check {s : State} {i : Instr} (h : s.PastTop (reach s i)) :
    ∃ c, (checksOf s i).find? (·.fails) = some c := by
  have hpc := s.pc.isLt
  have hpos : 1 ≤ reach s i := by have := h.1; omega
  have hmem : boundCheck s (reach s i) ∈ checksOf s i :=
    (mem_checksOf_iff s i _).mpr (.inl (List.mem_map_of_mem (List.mem_range'_1.mpr ⟨hpos, by omega⟩)))
  exact Option.isSome_iff_exists.mp (List.find?_isSome.mpr ⟨_, hmem, boundCheck_fails h⟩)

theorem exec_of_pastTop_reach {s : State} {i : Instr} (hwf : i.wellFormed = true) (h : s.PastTop (reach s i)) :
    exec i s = .next (s.faultedWith (opcodeOf i) 3 256) := by
  obtain ⟨c, hc⟩ := exists_failing_check h
  obtain ⟨hcode, hinfo, -⟩ | ⟨-, hi⟩ := failing_check_cases (List.mem_of_find?_eq_some hc) (List.find?_some hc)
  · rw [exec_of_check_fails hc, hcode, hinfo]
  · simp [hwf] at hi

theorem exec_completes_of_not_pastTop_reach {s : State} {i : Instr} (hwf : i.wellFormed = true)
    (h : ¬ s.PastTop (reach s i)) : ∃ t, exec i s = .next t ∧ Completed s t i := by
  refine exec_of_checks_pass (List.find?_eq_none.mpr fun c hmem hc => ?_)
  obtain ⟨-, -, hpast⟩ | ⟨-, hi⟩ := failing_check_cases hmem hc
  · exact h hpast
  · simp [hwf] at hi

theorem pastTop_reach_of_exec_boundsFault {s t : State} {i : Instr} (hs : s.status = .run) (h : exec i s = .next t)
    (hfault : t.status = .fault) (hcause : t.fcause = 3) :
    s.PastTop (reach s i) ∧ t = s.faultedWith (opcodeOf i) 3 256 := by
  cases hc : (checksOf s i).find? (·.fails) with
  | none =>
    obtain ⟨u, hu, hcompleted⟩ := exec_of_checks_pass hc
    obtain rfl : u = t := by simpa [hu] using h
    exact absurd hfault (hcompleted.effect.status_ne_fault hs)
  | some c =>
    obtain rfl : s.faultedWith (opcodeOf i) c.code c.info = t := by simpa [exec_of_check_fails hc] using h
    have hcode : c.code = 3 := hcause
    obtain ⟨-, hinfo, hpast⟩ | ⟨h2, -⟩ :=
      failing_check_cases (List.mem_of_find?_eq_some hc) (List.find?_some hc)
    · exact ⟨hpast, by rw [hcode, hinfo]⟩
    · simp [hcode] at h2

/-- Settles O13: R203's list is where an instruction's reach is past the top, and of its checks only the bound checks
within that reach record cause 3. -/
theorem boundsFaultExactlyNearTheTop : Obligations.BoundsFaultExactlyNearTheTop := by
  refine fun i s hs => ⟨fun hwf hmode hat => ?_, fun hwf hnot => ?_, fun t h hfault hcause => ?_⟩
  · exact exec_of_pastTop_reach hwf (pastTop_reach_iff.mpr ⟨hmode, hat⟩)
  · obtain ⟨t, ht, hc⟩ := exec_completes_of_not_pastTop_reach hwf (mt pastTop_reach_iff.mp hnot)
    exact ⟨t, ht, hc.effect.status_ne_fault hs⟩
  · obtain ⟨hpast, ht⟩ := pastTop_reach_of_exec_boundsFault hs h hfault hcause
    obtain ⟨hmode, hat⟩ := pastTop_reach_iff.mp hpast
    exact ⟨hmode, hat, ht⟩

end Sys2Proof.Machine
end

section
/-! Reset and load (spec/70_reset_and_hazards.md): what memory reads after an image is placed, when a load gives a launch
state and which, and that reset and load start the invariant. -/

namespace Sys2Proof.Machine

/-! ### Memory with an image in it -/

theorem Memory.read_place_below (m : List Host.Cell) (image : List Byte) {a b : Nat} (hb : b < a) :
    Memory.read (Memory.place m a image) b = Memory.read m b := by
  induction image generalizing m a with
  | nil => rfl
  | cons v image ih =>
    calc Memory.read (Memory.place (Memory.write m a v) (a + 1) image) b
        = Memory.read (Memory.write m a v) b := ih _ (by omega)
      _ = Memory.read m b := Memory.read_write_other m a v (by omega)

/-- From the address of its first byte up, memory reads as the image and past its end as before. -/
theorem Memory.read_place {m : List Host.Cell} (h : Memory.wf m = true) {a : Nat} {image : List Byte}
    (ha : a + image.length ≤ memSize) (i : Nat) :
    Memory.read (Memory.place m a image) (a + i) = image[i]?.getD (Memory.read m (a + i)) := by
  induction image generalizing m a i with
  | nil => rfl
  | cons v image ih =>
    rw [List.length_cons] at ha
    cases i with
    | zero =>
      calc Memory.read (Memory.place (Memory.write m a v) (a + 1) image) a
          = Memory.read (Memory.write m a v) a := Memory.read_place_below _ image (by omega)
        _ = v := Memory.read_write_same h a v
    | succ i =>
      have hwf : Memory.wf (Memory.write m a v) = true := Memory.wf_write h (by omega) v
      have hrest := ih hwf (a := a + 1) (by omega) i
      rw [Memory.read_write_other m a v (by omega), Nat.add_right_comm] at hrest
      exact hrest

/-! ### Load (R232) -/

theorem launch_eq_ok_iff {p : Params} {image : List Byte} {s : State} :
    launch p image = .ok s ↔
      image.length ≤ memSize ∧ s = { State.resetWith p with mem := Memory.place [] 0 image } := by
  unfold launch loadImage
  split
  · next hlen => exact ⟨fun h => by cases h; exact ⟨hlen, rfl⟩, fun ⟨_, hs⟩ => hs ▸ rfl⟩
  · next hlen => exact ⟨nofun, fun ⟨hle, _⟩ => absurd hle hlen⟩

theorem launch_of_too_long {p : Params} {image : List Byte} (h : memSize < image.length) :
    launch p image = .error (.imageTooLong image.length) := if_neg (Nat.not_le.mpr h)

theorem memRead_of_launch {p : Params} {image : List Byte} {s : State} (h : launch p image = .ok s) (a : Byte) :
    s.memRead a = if h : a.toNat < image.length then image[a.toNat] else 0 := by
  obtain ⟨hlen, rfl⟩ := launch_eq_ok_iff.mp h
  have hread := Memory.read_place (Memory.wf_reset p) (a := 0) (image := image) (by omega) a.toNat
  rw [Nat.zero_add] at hread
  refine hread.trans ?_
  split
  · next hin => rw [List.getElem?_eq_getElem hin, Option.getD_some]
  · next hout => rw [List.getElem?_eq_none (Nat.not_lt.mp hout)]; rfl

/-- Settles O4: a load succeeds exactly up to 256 bytes, writes memory alone, and `memRead_of_launch` reads it back. -/
theorem launchPlacesTheImage : Obligations.LaunchPlacesTheImage := by
  refine fun p image => ⟨fun hlen => ?_, fun hlong => ⟨_, launch_of_too_long hlong⟩⟩
  have hok := launch_eq_ok_iff (p := p).mpr ⟨hlen, rfl⟩
  exact ⟨_, hok, rfl, memRead_of_launch hok⟩

/-! ### The invariant at the start of a run -/

theorem inv_resetWith (p : Params) : Inv (State.resetWith p) where
  memory := Memory.wf_reset p
  flags := .inl rfl
  noRecord _ := ⟨rfl, rfl, rfl, rfl⟩
  record hf := by cases hf
  haltedAtHlt hh := by cases hh
  traceOff _ := rfl

theorem inv_of_launch {p : Params} {image : List Byte} {s : State} (h : launch p image = .ok s) : Inv s := by
  obtain ⟨hlen, rfl⟩ := launch_eq_ok_iff.mp h
  have hmem : Memory.wf (Memory.place [] 0 image) = true := Memory.wf_place (Memory.wf_reset p) (by omega)
  exact (inv_resetWith p).write rfl hmem (inv_resetWith p).flags rfl

/-- Settles O2: reset meets each clause, and a load writes memory alone, in canonical form. -/
theorem resetAndLaunchMeetInvariant : Obligations.ResetAndLaunchMeetInvariant :=
  ⟨inv_resetWith, fun _ _ _ => inv_of_launch⟩

end Sys2Proof.Machine
end
